-- ==== Sys2Proof/Word.lean ====
section
/-! DEFINITION. The one data width of the core (R6 `CELL_BITS`, R8, R20): every data value is an unsigned 8-bit byte.
Positions, addresses and the nesting counter are exact integers (R7, R8), so they are `Nat` and `Int`, not bit vectors. -/

namespace Sys2Proof

/-- A tape cell, a program byte or a channel byte: unsigned, 8 bits, `[0, 255]` (R8, R24, R57). -/
abbrev Byte := BitVec 8

end Sys2Proof
end

