-- ==== Sys2Proof/Syntax.lean ====
section
/-! DEFINITION. The whole instruction set: one constructor per row of spec/opcode_table.json, in the table's order.
The names are the spec's labels (R12), `inp` standing for IN because `in` is a word of Lean.
No instruction has an operand field (R80, R85), so the eight opcodes carry nothing; a comment byte carries its own
value, so that an encoder can write it back. END is no instruction: it is the position after the last byte (R84). -/

namespace Sys2Proof

/-- An instruction of `bf8` (R2, R82, R83). -/
inductive Instr where
  /-- `+` INC, R120. -/
  | inc
  /-- `-` DEC, R121. -/
  | dec
  /-- `>` RIGHT, R130. -/
  | right
  /-- `<` LEFT, R131. -/
  | left
  /-- `[` JZ, R145. -/
  | jz
  /-- `]` JNZ, R146. -/
  | jnz
  /-- `.` OUT, R160. -/
  | out
  /-- `,` IN, R161. -/
  | inp
  /-- NOP, R105: any byte that is none of the eight opcodes, with that byte. -/
  | nop (b : Byte)
  deriving DecidableEq, Repr

end Sys2Proof
end

