-- ==== Sys2Proof/WellFormed.lean ====
section
/-! DEFINITION. Which terms of `Instr` stand for bytes of a program. The one check: a comment's byte is not an opcode
(R83). -/

namespace Sys2Proof

/-- The eight opcode values of R82, sorted by value as the rule's table sorts them. -/
def opcodeBytes : List Byte := [0x2B#8, 0x2C#8, 0x2D#8, 0x2E#8, 0x3C#8, 0x3E#8, 0x5B#8, 0x5D#8]

/-- Whether a byte is one of the eight opcodes (R82); every other byte is a comment (R83). -/
def isOpcode (b : Byte) : Bool := opcodeBytes.contains b

/-- An instruction that some program byte encodes: an opcode, or a comment whose byte is no opcode (R81, R83). -/
def Instr.wellFormed : Instr → Bool
  | .inc | .dec | .right | .left | .jz | .jnz | .out | .inp => true
  | .nop b => !isOpcode b

end Sys2Proof
end

