-- ==== Sys2Proof/Decode.lean ====
section
/-! DEFINITION. The decoder and the encoder (R80 to R87). Every instruction is one byte, so a decoder reads one byte and
leaves the rest; the only input it rejects is one that holds no byte. -/

namespace Sys2Proof

/-- Why a decoder gives no instruction. No byte value is illegal (R83), so the one reason is that there is no byte:
the position after the last one is END, which is not an encoding (R84). Safe. -/
inductive DecodeError where
  | noByte
  deriving DecidableEq, Repr

/-- The opcode map (R82), all 8 bits compared (R81); any other byte is a comment (R83). -/
def decodeByte (b : Byte) : Instr :=
  if b = 0x2B#8 then .inc
  else if b = 0x2D#8 then .dec
  else if b = 0x3E#8 then .right
  else if b = 0x3C#8 then .left
  else if b = 0x5B#8 then .jz
  else if b = 0x5D#8 then .jnz
  else if b = 0x2E#8 then .out
  else if b = 0x2C#8 then .inp
  else .nop b

/-- The instruction that a byte sequence starts with, and the bytes after it (R80, R86). -/
def decode : List Byte → Except DecodeError (Instr × List Byte)
  | [] => .error .noByte
  | b :: rest => .ok (decodeByte b, rest)

/-- The byte of an instruction: R82's for an opcode, its own for a comment (R87). -/
def encodeByte : Instr → Byte
  | .inc => 0x2B#8
  | .dec => 0x2D#8
  | .right => 0x3E#8
  | .left => 0x3C#8
  | .jz => 0x5B#8
  | .jnz => 0x5D#8
  | .out => 0x2E#8
  | .inp => 0x2C#8
  | .nop b => b

/-- The bytes of an instruction: exactly one (R80, R86). -/
def encode (i : Instr) : List Byte := [encodeByte i]

/-- "The encoding of a text is its bytes in order" (R87). -/
def encodeProgram : List Instr → List Byte
  | [] => []
  | i :: is => encode i ++ encodeProgram is

/-- The instructions at the positions of a program, in order: each position holds a whole one (R22, R80). -/
def decodeProgram : List Byte → List Instr
  | [] => []
  | b :: rest => decodeByte b :: decodeProgram rest

/-- The one byte of an instruction whose table word is `w`, of which the table gives `nbits` bits: the bits above
`nbits` are 0, and the byte is the word's bits 7..0 (R57: no byte order arises). -/
def tableByte (nbits w : Nat) : Byte := BitVec.ofNat 8 (w % 2 ^ nbits)

/-- The instruction the decoder reads from a word of spec/opcode_table.json (log entry 15). -/
def decodeTableWord (nbits w : Nat) : Option Instr :=
  match decode [tableByte nbits w] with
  | .ok (i, _) => some i
  | .error _ => none

end Sys2Proof
end

