-- ==== Sys2Proof/Config.lean ====
section
/-! DEFINITION. What the host fixes before a run (R6, R31, R51 `CFG` and `IMEM`, R261) and what the spec leaves open.
The core samples `HostSetup` at reset; the sampled values then stand in State (Machine/State.lean).
`IO_PROTOCOL` (R6, D14) is the cycle-level handshake of the channels: the model is untimed (R266), so no rule reads it
and nothing stands for it here; that the host may make the core wait is in Machine/HostPort.lean. -/

namespace Sys2Proof

/-- `TAPE_POLICY`: what `>` and `<` do at the tape's ends (R6, R132). -/
inductive TapePolicy where
  | fault
  | wrap
  deriving DecidableEq, Repr

/-- `EOF_POLICY`: what `,` does at end of input (R6, R162). -/
inductive EofPolicy where
  | unchanged
  | zero
  deriving DecidableEq, Repr

/-- The 1-bit value of `TAPE_POLICY` in its configuration register (R31): 0 fault, 1 wrap. -/
def TapePolicy.code : TapePolicy → BitVec 1
  | .fault => 0
  | .wrap => 1

/-- The policy a `TAPE_POLICY` bit stands for (R31). -/
def TapePolicy.ofCode (c : BitVec 1) : TapePolicy := if c = 0 then .fault else .wrap

/-- The 1-bit value of `EOF_POLICY` in its configuration register (R31): 0 unchanged, 1 zero. -/
def EofPolicy.code : EofPolicy → BitVec 1
  | .unchanged => 0
  | .zero => 1

/-- The policy an `EOF_POLICY` bit stands for (R31). -/
def EofPolicy.ofCode (c : BitVec 1) : EofPolicy := if c = 0 then .unchanged else .zero

/-- What the host gives before it releases reset (R31, R261): the five configuration values and its whole input. -/
structure HostSetup where
  /-- `TAPE_SIZE`, written `N`; a legal setup has `N >= 1` (R6, R228). -/
  tapeSize : Nat
  /-- `PROG`; `PROG_LEN`, written `L`, is its length (R6), see log entry 13. -/
  prog : List Byte
  tapePolicy : TapePolicy
  eofPolicy : EofPolicy
  /-- The host's whole input sequence (R32). -/
  input : List Byte
  deriving DecidableEq, Repr

/-- The setup of a host that configures nothing (R262: `N = 30000`; R6: `fault` and `unchanged` are the defaults), has
loaded no program and has no input. DESIGN CHOICE (log entry 3) for the empty program and input. -/
def HostSetup.unconfigured : HostSetup :=
  { tapeSize := 30000, prog := [], tapePolicy := .fault, eofPolicy := .unchanged, input := [] }

/-- `EXIT_FAULT_STATUS` less one: OPEN in the spec (R6, R229, D18), so nothing is known of it (log entry 12). -/
opaque Config.exitFaultStatusLessOne : Nat

end Sys2Proof
end

