-- ==== Sys2Proof/Machine/State.lean ====
section
/-! DEFINITION. The whole state of the core as plain data (R20 to R33), the reasons a step can stop, and reset.
The resolver's scan position and nesting counter are no state: they exist only inside one step (R28). -/

namespace Sys2Proof.Machine

/-- A sparse memory of bytes: (address, byte) pairs, addresses strictly rising, no entry 0. An address that is not listed
reads 0, which is what the tape holds after reset (R32, R54). -/
abbrev Memory := List Host.Cell

/-- `RUN`, the engine's state (R25). `Halted` and `Faulted` are final until reset. -/
inductive RunState where
  | running
  | halted
  | faulted
  deriving DecidableEq, Repr

/-- `FAULT_CAUSE`, 2 bits wide: its three written values (R26). Code 3 is never written, so it is no value (U12). -/
inductive FaultCause where
  | none
  | malformedProgram
  | tapeBoundsError
  deriving DecidableEq, Repr

/-- Everything the spec gives the machine. -/
structure State where
  /-- `IP`, the position of the next instruction, in `[0, L]` (R21, R22). -/
  ip : Nat
  /-- `DP`, the index of the current cell, in `[0, N-1]` (R23). -/
  dp : Nat
  /-- `TAPE`, `N` unsigned 8-bit cells (R24). -/
  tape : Memory
  /-- `RUN` (R25). -/
  run : RunState
  /-- `FAULT_CAUSE` (R26). -/
  faultCause : FaultCause
  /-- `FAULT_IP`, the position of the faulting instruction, 0 while there is none (R26). -/
  faultIp : Nat
  /-- `INPUT`, the bytes the host has not yet delivered (R30). -/
  input : List Byte
  /-- `OUTPUT`, the bytes delivered to the host, oldest first (R30). -/
  output : List Byte
  /-- `TAPE_SIZE`, written `N`: configuration, constant for the run (R31). -/
  tapeSize : Nat
  /-- `PROG[0..L-1]`: configuration, constant for the run (R31, R52). Its length is `PROG_LEN`. -/
  prog : List Byte
  /-- `TAPE_POLICY`: configuration (R31). -/
  tapePolicy : TapePolicy
  /-- `EOF_POLICY`: configuration (R31). -/
  eofPolicy : EofPolicy
  deriving DecidableEq, Repr

/-- `PROG_LEN`, written `L`: the number of program bytes before the sentinel (R6, R31), log entry 13. -/
abbrev State.progLen (s : State) : Nat := s.prog.length

/-- Why a step ends without a next state although an instruction ran. The core's own two faults are not here: the core
enters `Faulted` with its record written, which is a next state (R222). -/
inductive Fault where
  /-- A tape port access outside `[0, N-1]` (R55 requires `0 <= a < N`). Raised by `memRead` and `memWrite`. Safe: no
  state that a run reaches raises it (R23), log entry 9. -/
  | tapeAddressOutOfRange (address : Nat)
  deriving DecidableEq, Repr

/-- Why a step is refused. -/
inductive Refusal where
  /-- An instruction with no meaning yet, by its mnemonic in spec/opcode_table.json. Raised by no arm of `exec`. Safe. -/
  | notModelled (mnemonic : String)
  /-- `Fetch(i)` with `i > L`: no rule calls it (R53, U14). Raised by `stepRunning`. Safe: no run reaches such an `IP`
  (R33), log entry 8. -/
  | fetchOutOfRange (position : Nat)
  /-- A configuration with `TAPE_SIZE = 0`, which is not a state of the core (R228, U16). Raised by `assertReset` and
  `stepRunning`. Safe, log entry 7. -/
  | zeroTapeSize
  deriving DecidableEq, Repr

/-- The machine right after a reset that sampled the host's setup `h`: the values of R32's table. -/
def State.ofSetup (h : HostSetup) : State :=
  { ip := 0
    dp := 0
    tape := []
    run := .running
    faultCause := .none
    faultIp := 0
    input := h.input
    output := []
    tapeSize := h.tapeSize
    prog := h.prog
    tapePolicy := h.tapePolicy
    eofPolicy := h.eofPolicy }

/-- The machine right after reset, under a host that configures nothing (R32, R262; log entries 3 and 4). -/
def State.reset : State := State.ofSetup HostSetup.unconfigured

end Sys2Proof.Machine
end

