-- ==== Sys2Proof/Machine/Ops.lean ====
section
/-! DEFINITION. The named operations over the registers, the program space, the tape and the channels: the primitives of
R9, taking a fault (R222), and reset, the only way out of one (R224, R260). -/

namespace Sys2Proof.Machine

/-- What a meaning or a step answers. -/
abbrev Result := Host.Outcome State Fault Refusal

/-! Registers: each is written here and nowhere else. -/

/-- `ip <- v` (R9, R21). -/
def State.setIp (s : State) (v : Nat) : State := { s with ip := v }

/-- `dp <- v` (R9, R23). -/
def State.setDp (s : State) (v : Nat) : State := { s with dp := v }

/-- The tape's new contents, every other piece of state kept. -/
def State.setTape (s : State) (m : Memory) : State := { s with tape := m }

/-- `RUN <- r` (R25). -/
def State.setRun (s : State) (r : RunState) : State := { s with run := r }

/-- The fault record's two fields (R26). -/
def State.setFaultRecord (s : State) (c : FaultCause) (p : Nat) : State := { s with faultCause := c, faultIp := p }

/-- The bytes the host has not yet delivered (R30). -/
def State.setInput (s : State) (bs : List Byte) : State := { s with input := bs }

/-- The bytes delivered to the host (R30). -/
def State.setOutput (s : State) (bs : List Byte) : State := { s with output := bs }

/-- `IP <- IP + 1`, the advance of every instruction that does not redirect (R104). -/
def advance (s : State) : State := s.setIp (s.ip + 1)

/-! The tape as a list of cells. -/

/-- The byte at an address: 0 where none is listed (R54). -/
def Memory.read : Memory → Nat → Byte
  | [], _ => 0#8
  | c :: m, a => if c.1 = a then c.2 else Memory.read m a

/-- The memory without an entry at `a`. -/
def Memory.erase : Memory → Nat → Memory
  | [], _ => []
  | c :: m, a => if c.1 = a then Memory.erase m a else c :: Memory.erase m a

/-- The memory with an entry put before the first one of a higher address. -/
def Memory.insert : Memory → Nat → Byte → Memory
  | [], a, v => [(a, v)]
  | c :: m, a, v => if a < c.1 then (a, v) :: c :: m else c :: Memory.insert m a v

/-- The memory with the byte `v` at `a`: exactly one cell changes (R55). Writing 0 leaves no entry. -/
def Memory.write (m : Memory) (a : Nat) (v : Byte) : Memory :=
  if v = 0#8 then m.erase a else (m.erase a).insert a v

/-- The canonical form: addresses strictly rising, no entry equal to what an unlisted address reads as. -/
abbrev Memory.wf (m : Memory) : Prop := m.Pairwise (fun c d => c.1 < d.1) ∧ ∀ c ∈ m, c.2 ≠ 0#8

/-! The program space (R53). -/

/-- What `Fetch(i)` answers: a byte, the marker END, or nothing where no rule calls it (R53). -/
inductive Fetched where
  | byte (b : Byte)
  | endMark
  | outside
  deriving DecidableEq, Repr

/-- `Fetch(i)` (R53). The sentinel is position `L` itself, not a byte value (R84). -/
def fetch (prog : List Byte) (i : Nat) : Fetched :=
  match prog[i]? with
  | some b => .byte b
  | none => if i = prog.length then .endMark else .outside

/-- The program with the byte `b` at position `p`. Where `p` lies past the end, the program grows to hold it, the
positions between filled with the comment byte 0x00 (log entry 15). For placing a program, not for any instruction. -/
def placeByte (prog : List Byte) (p : Nat) (b : Byte) : List Byte :=
  prog.take p ++ List.replicate (p - prog.length) 0#8 ++ b :: prog.drop (p + 1)

/-! The tape port (R55). -/

/-- `MemRead(a, 1)`, the byte handed on to `k` (R55). -/
def memRead (a : Nat) (s : State) (k : Byte → Result) : Result :=
  if a < s.tapeSize then k (s.tape.read a) else .fault (.tapeAddressOutOfRange a)

/-- `MemWrite(a, 1, v)`, the state after it handed on to `k` (R55). -/
def memWrite (a : Nat) (v : Byte) (s : State) (k : State → Result) : Result :=
  if a < s.tapeSize then k (s.setTape (s.tape.write a v)) else .fault (.tapeAddressOutOfRange a)

/-! The channels (R61, R62). -/

/-- The host's answer to an input request (R51 `IN`, R61). -/
inductive InAnswer where
  | byte (b : Byte)
  | eof
  deriving DecidableEq, Repr

/-- `InRead()` once the host has answered: the answer and the state after it (R61). -/
def inRead (s : State) : InAnswer × State :=
  match s.input with
  | [] => (.eof, s)
  | b :: rest => (.byte b, s.setInput rest)

/-- `OutWrite(b)` once the host has accepted: the byte is delivered in this step (R62). -/
def outWrite (b : Byte) (s : State) : State := s.setOutput (s.output ++ [b])

/-- The trailing newline, 0x0A (R102, D9; general knowledge, G2: log entry 2). -/
def newline : Byte := 0x0A#8

/-- END, the halt (R102): the newline, then `RUN <- Halted`; `IP` stays `L`. -/
def halt (s : State) : State := (outWrite newline s).setRun .halted

/-! Faults (R220 to R224). -/

/-- The core's two faults (R220). -/
inductive CoreFault where
  | malformedProgram
  | tapeBoundsError
  deriving DecidableEq, Repr

/-- The cause a fault writes (R220, R222). -/
def CoreFault.cause : CoreFault → FaultCause
  | .malformedProgram => .malformedProgram
  | .tapeBoundsError => .tapeBoundsError

/-- `raise F(p)` (R222): the record, then `RUN <- Faulted`, and nothing else. There is no handler and no saved state.
There is no return either (R224): only `assertReset` leaves `Faulted`. -/
def raiseFault (f : CoreFault) (p : Nat) (s : State) : State := (s.setFaultRecord f.cause p).setRun .faulted

/-- `RESET` with the host's setup `h`, in any state (R260): it samples the configuration and discards the previous run,
a waiting channel transfer included (D28). With `TAPE_SIZE = 0` the core does not leave reset (R228). -/
def assertReset (h : HostSetup) (_s : State) : Result :=
  if h.tapeSize = 0 then .refused .zeroTapeSize else .next (State.ofSetup h)

/-! Codes the host reads (R25, R26). -/

/-- The code of `RUN` (R25). -/
def RunState.code : RunState → Nat
  | .running => 0
  | .halted => 1
  | .faulted => 2

/-- The 2-bit code of `FAULT_CAUSE` (R26, R220). -/
def FaultCause.code : FaultCause → BitVec 2
  | .none => 0
  | .malformedProgram => 1
  | .tapeBoundsError => 2

end Sys2Proof.Machine
end

