-- ==== Sys2Proof/Machine/Operands.lean ====
section
/-! DEFINITION. The core's operand forms. There is one for data, the current cell `TAPE[DP]`, chosen by `DP` and never
encoded (R20, R85), and one for addresses, `DP` itself, moved under the tape-bounds policy (R132). -/

namespace Sys2Proof.Machine

/-- The tape address of the data operand: `DP` (R24, R85). -/
def currentAddress (s : State) : Nat := s.dp

/-- Read the current cell. -/
def readCell (s : State) (k : Byte → Result) : Result := memRead (currentAddress s) s k

/-- Write the current cell. -/
def writeCell (v : Byte) (s : State) (k : State → Result) : Result := memWrite (currentAddress s) v s k

/-- `(v + 1) mod 256` (R120, R122). -/
def incByte (v : Byte) : Byte := BitVec.ofNat 8 ((v.toNat + 1) % 256)

/-- `(v + 255) mod 256`, equal to `(v - 1) mod 256` (R121, R122). -/
def decByte (v : Byte) : Byte := BitVec.ofNat 8 ((v.toNat + 255) % 256)

/-- A pointer move (R130, R131, R132): to `target` where that is on the tape, else to `wrapped` under `wrap`, else the
fault, which belongs to the move itself (D5). -/
def movePointer (onTape : Bool) (target wrapped : Nat) (s : State) : Result :=
  if onTape then .next (advance (s.setDp target))
  else
    match s.tapePolicy with
    | .wrap => .next (advance (s.setDp wrapped))
    | .fault => .next (raiseFault .tapeBoundsError s.ip s)

end Sys2Proof.Machine
end

