-- ==== Sys2Proof/Machine/Arithmetic.lean ====
section
/-! DEFINITION. Cell arithmetic: `+` and `-` (spec/41_cell_arithmetic.md). -/

namespace Sys2Proof.Machine

/-- `+` INC (R120). -/
def execInc (s : State) : Result :=
  readCell s fun v => writeCell (incByte v) s fun t => .next (advance t)

/-- `-` DEC (R121). -/
def execDec (s : State) : Result :=
  readCell s fun v => writeCell (decByte v) s fun t => .next (advance t)

end Sys2Proof.Machine
end

