-- ==== Sys2Proof/Machine/Comment.lean ====
section
/-! DEFINITION. Comment bytes (spec/40_dispatch.md, section 2). -/

namespace Sys2Proof.Machine

/-- NOP (R105): any byte that is no opcode only advances `IP`; it does not read the tape. -/
def execNop (_b : Byte) (s : State) : Result := .next (advance s)

end Sys2Proof.Machine
end

