-- ==== Sys2Proof/Machine/Flags.lean ====
section
/-! DEFINITION. The core has no flags, condition codes or predicates, and no instruction leaves a condition behind (R27).
What stands for them is the one test that `[` and `]` make when they execute. -/

namespace Sys2Proof.Machine

/-- The test of the current cell against zero (R27, R145, R146). -/
def isZero (v : Byte) : Bool := v == 0#8

end Sys2Proof.Machine
end

