-- ==== Sys2Proof/Machine/Resolver.lean ====
section
/-! DEFINITION. The Bracket Resolver: a linear scan with a nesting counter, run anew on every taken jump (R140 to R144).
It reads the program and nothing else. -/

namespace Sys2Proof.Machine

/-- What one scanned byte adds to the nesting counter: 1 for `[`, -1 for `]`, 0 for any other (R141). -/
def bracketWeight (b : Byte) : Int :=
  if b = 0x5B#8 then 1 else if b = 0x5D#8 then -1 else 0

/-- The scan's loop (R141), from position `s` with counter `c` in direction `d`: the bound is tested before the read.
`none` is MalformedProgram. The first argument bounds the number of passes (log entry 10). -/
def scan (prog : List Byte) (d : Int) : Nat → Int → Int → Option Nat
  | 0, _, _ => none
  | passes + 1, s, c =>
    if s + d < 0 ∨ (prog.length : Int) ≤ s + d then none
    else if c + bracketWeight (prog.getD (s + d).toNat 0#8) = 0 then some (s + d).toNat
    else scan prog d passes (s + d) (c + bracketWeight (prog.getD (s + d).toNat 0#8))

/-- `resolve(p)` (R140, R141): the matching bracket's position, `none` where the rule raises MalformedProgram(p). A scan
makes at most `L` passes (R143). -/
def resolve (prog : List Byte) (p : Nat) : Option Nat :=
  if prog[p]? = some 0x5B#8 then scan prog 1 prog.length p 1
  else if prog[p]? = some 0x5D#8 then scan prog (-1) prog.length p (-1)
  else none

/-- A taken jump (R145, R146, R147): past the matching bracket in one step, or the fault at the bracket executed (D25). -/
def takeJump (s : State) : Result :=
  match resolve s.prog s.ip with
  | some q => .next (s.setIp (q + 1))
  | none => .next (raiseFault .malformedProgram s.ip s)

end Sys2Proof.Machine
end

