-- ==== Sys2Proof/Machine/Control.lean ====
section
/-! DEFINITION. Control transfer: `[` and `]` (spec/43_control.md). -/

namespace Sys2Proof.Machine

/-- `[` JZ (R145). -/
def execJz (s : State) : Result :=
  readCell s fun v => if isZero v then takeJump s else .next (advance s)

/-- `]` JNZ (R146). -/
def execJnz (s : State) : Result :=
  readCell s fun v => if isZero v then .next (advance s) else takeJump s

end Sys2Proof.Machine
end

