-- ==== Sys2Proof/Machine/Io.lean ====
section
/-! DEFINITION. Character I/O: `.` and `,` (spec/44_io.md). -/

namespace Sys2Proof.Machine

/-- `.` OUT (R160). -/
def execOut (s : State) : Result :=
  readCell s fun v => .next (advance (outWrite v s))

/-- What `,` does with the host's answer (R161): a byte goes to the current cell; at end of input `EOF_POLICY` decides
(R162). -/
def storeAnswer (r : InAnswer) (s : State) : Result :=
  match r with
  | .byte b => writeCell b s fun t => .next (advance t)
  | .eof =>
    match s.eofPolicy with
    | .zero => writeCell 0#8 s fun t => .next (advance t)
    | .unchanged => .next (advance s)

/-- `,` IN (R161). -/
def execIn (s : State) : Result := storeAnswer (inRead s).1 (inRead s).2

end Sys2Proof.Machine
end

