-- ==== Sys2Proof/Machine/Pointer.lean ====
section
/-! DEFINITION. Data-pointer moves: `>` and `<` (spec/42_pointer.md). -/

namespace Sys2Proof.Machine

/-- `>` RIGHT (R130): on the tape when `DP + 1 <= N - 1`, else 0 under `wrap`. -/
def execRight (s : State) : Result :=
  movePointer (decide (s.dp + 1 < s.tapeSize)) (s.dp + 1) 0 s

/-- `<` LEFT (R131): on the tape when `DP >= 1`, else `N - 1` under `wrap`. -/
def execLeft (s : State) : Result :=
  movePointer (decide (1 ≤ s.dp)) (s.dp - 1) (s.tapeSize - 1) s

end Sys2Proof.Machine
end

