-- ==== Sys2Proof/Machine/Engine.lean ====
section
/-! DEFINITION. The Execution Engine's transition (R100 to R104): fetch at `IP`, decode, dispatch. -/

namespace Sys2Proof.Machine

/-- One step of a Running core (R101). A configuration with no cells is not a state of the core (R228). -/
def stepRunning (s : State) : Result :=
  if s.tapeSize = 0 then .refused .zeroTapeSize
  else
    match fetch s.prog s.ip with
    | .byte b => exec (decodeByte b) s
    | .endMark => .next (halt s)
    | .outside => .refused (.fetchOutOfRange s.ip)

/-- A Halted or Faulted core takes no step: nothing changes until reset (R100, R234; log entry 5). -/
def stepStopped (s : State) : Result := .next s

end Sys2Proof.Machine
end

