-- ==== Sys2Proof/Machine/Step.lean ====
section
/-! DEFINITION. The machine's step, and how the host of this model places one instruction where step fetches next. -/

namespace Sys2Proof.Machine

/-- One transition of the engine (R100, R101). -/
def step (s : State) : Host.Outcome State Fault Refusal :=
  match s.run with
  | .running => stepRunning s
  | .halted => stepStopped s
  | .faulted => stepStopped s

/-- `s` with the instruction of a table word at position `IP` of the program, and Running, so that the next step runs
it. It stands for the host's loading of a program (R261), not for anything an instruction does (log entries 4, 15). -/
def State.withFetchWord (s : State) (nbits w : Nat) : State :=
  { s with prog := placeByte s.prog s.ip (tableByte nbits w), run := .running }

end Sys2Proof.Machine
end

