-- ==== Sys2Proof/Machine/HostPort.lean ====
section
/-! DEFINITION. What the outside world sees of the core and can do to it (R51, R63): the `STATUS` port and the outcome it
gives, the two places where the core waits on a channel, and `RESET`. -/

namespace Sys2Proof.Machine

/-- What the host reads on `STATUS` at any time (R51): the codes of R25 and R26. -/
structure Status where
  run : Nat
  faultCause : BitVec 2
  faultIp : Nat
  deriving DecidableEq, Repr

/-- The `STATUS` port (R51). `FAULT_IP` has a meaning only while `RUN = Faulted` (R26, U13). -/
def status (s : State) : Status :=
  { run := s.run.code, faultCause := s.faultCause.code, faultIp := s.faultIp }

/-- `EXIT_FAULT_STATUS`: some nonzero value, OPEN (R6, R229; log entry 12). -/
def exitFaultStatus : Nat := Config.exitFaultStatusLessOne + 1

/-- The exit status that corresponds to how the run ended, none while it has not (R229). -/
def exitStatus (s : State) : Option Nat :=
  match s.run with
  | .running => none
  | .halted => some 0
  | .faulted => some exitFaultStatus

/-- The two channels (R51). -/
inductive Channel where
  | input
  | output
  deriving DecidableEq, Repr

/-- The channel an instruction waits on: IN for `,`, OUT for `.`, none for any other (R234). -/
def instrChannel : Instr → Option Channel
  | .inp => some .input
  | .out => some .output
  | .inc | .dec | .right | .left | .jz | .jnz | .nop _ => none

/-- The transfer that the core's next step needs the host for: where it waits, it waits on this (R234). -/
def pendingTransfer (s : State) : Option Channel :=
  match s.run with
  | .halted | .faulted => none
  | .running =>
    match fetch s.prog s.ip with
    | .byte b => instrChannel (decodeByte b)
    | .endMark => some .output
    | .outside => none

/-- What the host does at one moment (R63): it serves the channels; it does not, or not yet; it asserts reset. -/
inductive HostEvent where
  | serve
  | stall
  | reset (h : HostSetup)
  deriving DecidableEq, Repr

/-- The core under one event of the host. A core that waits keeps all of its state: a wait is a step not yet taken (R234,
R266). A stalled host does not hold up a step that needs no transfer. Reset overrides everything, a wait included
(R226). -/
def hostEvent (e : HostEvent) (s : State) : Result :=
  match e with
  | .serve => step s
  | .stall => if (pendingTransfer s).isSome then .next s else step s
  | .reset h => assertReset h s

/-- The core under a sequence of events, stopping where one of them gives no next state. -/
def hostRun : List HostEvent → State → Result
  | [], s => .next s
  | e :: es, s =>
    match hostEvent e s with
    | .next t => hostRun es t
    | .fault r => .fault r
    | .refused r => .refused r

end Sys2Proof.Machine
end

