-- ==== Sys2Proof/Safety.lean ====
section
/-! DEFINITION. The terms the claims use: the invariants of a run (R33), what it is for two brackets to match, counted over
the program with no scan (R142), what justifies a fault (R220), and a run of instructions one after another. -/

namespace Sys2Proof

open Sys2Proof.Machine

/-- What holds in every state reached from reset (R33), with the tape's canonical form and, from R26, `FAULT_IP = 0`
while the core is not Faulted. -/
structure MachineInv (s : State) : Prop where
  tapeSize_pos : 0 < s.tapeSize
  ip_le : s.ip ≤ s.progLen
  dp_lt : s.dp < s.tapeSize
  tape_wf : s.tape.wf
  tape_bound : ∀ c ∈ s.tape, c.1 < s.tapeSize
  running : s.run = .running → s.faultCause = .none
  halted : s.run = .halted → s.ip = s.progLen ∧ s.faultCause = .none
  faulted : s.run = .faulted → s.faultCause ≠ .none ∧ s.faultIp = s.ip ∧ s.ip < s.progLen
  faultIp_zero : s.run ≠ .faulted → s.faultIp = 0

/-- How many bytes equal to `b` stand at the positions `lo <= i < hi`. -/
def countIn (prog : List Byte) (b : Byte) (lo hi : Nat) : Nat := ((prog.drop lo).take (hi - lo)).count b

/-- R142's definition of the bracket that matches a `[` at `p`: the least `q > p` such that the positions `p+1` to `q`
hold one more `]` than `[`. -/
abbrev ForwardMatch (prog : List Byte) (p q : Nat) : Prop :=
  p < q ∧ q < prog.length ∧ countIn prog 0x5D#8 (p + 1) (q + 1) = countIn prog 0x5B#8 (p + 1) (q + 1) + 1 ∧
    ∀ r < q, p < r → countIn prog 0x5D#8 (p + 1) (r + 1) ≠ countIn prog 0x5B#8 (p + 1) (r + 1) + 1

/-- The mirror image (R142) for a `]` at `p`: the greatest `q < p` such that the positions `q` to `p-1` hold one more `[`
than `]`. -/
abbrev BackwardMatch (prog : List Byte) (p q : Nat) : Prop :=
  q < p ∧ p < prog.length ∧ countIn prog 0x5B#8 q p = countIn prog 0x5D#8 q p + 1 ∧
    ∀ r < p, q < r → countIn prog 0x5B#8 r p ≠ countIn prog 0x5D#8 r p + 1

/-- When MalformedProgram is the right outcome at `s` (R144, R220): a `[` that finds its cell zero, or a `]` that finds it
nonzero, with no matching bracket. -/
def malformedHere (s : State) : Prop :=
  (s.prog[s.ip]? = some 0x5B#8 ∧ s.tape.read s.dp = 0#8 ∧ ∀ q, ¬ForwardMatch s.prog s.ip q) ∨
  (s.prog[s.ip]? = some 0x5D#8 ∧ s.tape.read s.dp ≠ 0#8 ∧ ∀ q, ¬BackwardMatch s.prog s.ip q)

/-- When TapeBoundsError is the right outcome at `s` (R132, R220): `TAPE_POLICY = fault`, and a `>` at the last cell or a
`<` at the first. -/
def offTapeHere (s : State) : Prop :=
  s.tapePolicy = .fault ∧
    ((s.prog[s.ip]? = some 0x3E#8 ∧ s.dp + 1 = s.tapeSize) ∨ (s.prog[s.ip]? = some 0x3C#8 ∧ s.dp = 0))

/-- The fault record tells the truth about the state it stands in. -/
def FaultJustified (s : State) : Prop :=
  (s.faultCause = .malformedProgram → malformedHere s) ∧ (s.faultCause = .tapeBoundsError → offTapeHere s)

/-- A halted run's output ends with the trailing newline (R107). -/
def HaltedAfterNewline (s : State) : Prop := s.run = .halted → s.output.getLast? = some 0x0A#8

/-- The instructions of a list one after another, as long as the core is Running (R100); not a program in the program
space, only the meanings in a row. -/
def execSeq : List Instr → State → Result
  | [], s => .next s
  | i :: is, s =>
    match s.run with
    | .running =>
      match exec i s with
      | .next t => execSeq is t
      | .fault r => .fault r
      | .refused r => .refused r
    | .halted => .next s
    | .faulted => .next s

end Sys2Proof
end

