-- ==== Sys2Proof/Certificates/Slice0/Obligations.lean ====
section
/-! DEFINITION. The statements for the provers, in the order of OBLIGATIONS.json. Each docstring names the rule of spec/
that it formalises, or what it is derived from. -/

open Sys2Proof Sys2Proof.Machine

/-! ## Encoding -/

/-- Derived from R81 and R82: the eight opcode values, and two comment bytes next to them, decode as the table says. -/
def Obligations.OpcodeBytesDecode : Prop :=
  decode [0x2B#8] = .ok (.inc, []) ∧ decode [0x2C#8] = .ok (.inp, []) ∧ decode [0x2D#8] = .ok (.dec, []) ∧
  decode [0x2E#8] = .ok (.out, []) ∧ decode [0x3C#8] = .ok (.left, []) ∧ decode [0x3E#8] = .ok (.right, []) ∧
  decode [0x5B#8] = .ok (.jz, []) ∧ decode [0x5D#8] = .ok (.jnz, []) ∧ decode [0x00#8] = .ok (.nop 0x00#8, []) ∧
  decode [0x5C#8] = .ok (.nop 0x5C#8, [])

/-- R83: the 248 comment bytes, their ranges, and that each executes as a no-op; no byte value is illegal. -/
def Obligations.EveryOtherByteIsAComment : Prop :=
  (∀ b : Byte, decodeByte b = .nop b ↔
    b.toNat ≤ 0x2A ∨ (0x2F ≤ b.toNat ∧ b.toNat ≤ 0x3B) ∨ b.toNat = 0x3D ∨ (0x3F ≤ b.toNat ∧ b.toNat ≤ 0x5A) ∨
      b.toNat = 0x5C ∨ 0x5E ≤ b.toNat) ∧
  ((List.range 256).filter fun n => decodeByte (BitVec.ofNat 8 n) == .nop (BitVec.ofNat 8 n)).length = 248 ∧
  (∀ (b : Byte) (s : State), exec (.nop b) s = .next { s with ip := s.ip + 1 }) ∧
  ∀ (b : Byte) (rest : List Byte), ∃ i, decode (b :: rest) = .ok (i, rest)

/-- Derived from R80, R82, R83 and R87: a well-formed instruction is read back from its bytes, whatever follows. -/
def Obligations.DecodeReadsBackEncode : Prop :=
  ∀ i : Instr, i.wellFormed = true → ∀ rest, decode (encode i ++ rest) = .ok (i, rest)

/-- Derived from R22, R80, R83 and R87: program texts and instruction sequences are the same thing, in both directions,
and the instruction at position `p` is the one the byte at `p` encodes. -/
def Obligations.ProgramTextAndInstructionsCorrespond : Prop :=
  (∀ is : List Instr, (∀ i ∈ is, i.wellFormed = true) → decodeProgram (encodeProgram is) = is) ∧
  (∀ bs : List Byte, encodeProgram (decodeProgram bs) = bs ∧ ∀ i ∈ decodeProgram bs, i.wellFormed = true) ∧
  ∀ (bs : List Byte) (p : Nat), (decodeProgram bs)[p]? = bs[p]?.map decodeByte

/-! ## Reset and the host's setup -/

/-- R260, with R32's values: reset in any state samples the setup, sets every piece of state, and discards the run
before it; the next step is the one at position 0. -/
def Obligations.ResetSetsEveryPieceOfState : Prop :=
  ∀ (h : HostSetup) (s : State), 0 < h.tapeSize →
    ∃ t, hostEvent (.reset h) s = .next t ∧ t.ip = 0 ∧ t.dp = 0 ∧ (∀ a, t.tape.read a = 0#8) ∧ t.run = .running ∧
      t.faultCause = .none ∧ t.faultIp = 0 ∧ t.output = [] ∧ t.input = h.input ∧ t.tapeSize = h.tapeSize ∧
      t.prog = h.prog ∧ t.progLen = h.prog.length ∧ t.tapePolicy = h.tapePolicy ∧ t.eofPolicy = h.eofPolicy ∧
      step t = (match h.prog with
        | [] => .next (halt t)
        | b :: _ => exec (decodeByte b) t)

/-- Derived from R228: with `TAPE_SIZE = 0` the core does not leave reset. That a step of such a state is refused too is
the model's choice (log entry 7). -/
def Obligations.ZeroTapeSizeNeverLaunches : Prop :=
  (∀ (h : HostSetup) (s : State), h.tapeSize = 0 → hostEvent (.reset h) s = .refused .zeroTapeSize) ∧
  ∀ s : State, s.tapeSize = 0 → s.run = .running → step s = .refused .zeroTapeSize

/-- Derived from R32 and R33: the invariants hold right after every legal reset, `State.reset` among them. -/
def Obligations.LaunchStatesMeetTheInvariants : Prop :=
  (∀ h : HostSetup, 0 < h.tapeSize →
    MachineInv (State.ofSetup h) ∧ FaultJustified (State.ofSetup h) ∧ HaltedAfterNewline (State.ofSetup h)) ∧
  MachineInv State.reset

/-! ## The step -/

/-- R101: a Running core whose program bytes at `IP` decode to `i` executes `i`, and step adds nothing; at END it halts;
which byte decodes to which instruction. -/
def Obligations.StepRunsTheDecodedInstruction : Prop :=
  (∀ (s : State) (i : Instr) (rest : List Byte), s.run = .running → 0 < s.tapeSize →
    decode (s.prog.drop s.ip) = .ok (i, rest) → step s = exec i s) ∧
  (∀ s : State, s.run = .running → 0 < s.tapeSize → s.ip = s.progLen → step s = .next (halt s)) ∧
  decodeByte 0x2B#8 = .inc ∧ decodeByte 0x2D#8 = .dec ∧ decodeByte 0x3E#8 = .right ∧ decodeByte 0x3C#8 = .left ∧
  decodeByte 0x5B#8 = .jz ∧ decodeByte 0x5D#8 = .jnz ∧ decodeByte 0x2E#8 = .out ∧ decodeByte 0x2C#8 = .inp ∧
  ∀ b : Byte, b ∉ [0x2B#8, 0x2D#8, 0x3E#8, 0x3C#8, 0x5B#8, 0x5D#8, 0x2E#8, 0x2C#8] → decodeByte b = .nop b

/-- R102: the step at the sentinel delivers the newline, once the host accepts it, and halts; nothing else changes. A step
that ends in a fault delivers no newline. -/
def Obligations.StepAtTheSentinelHalts : Prop :=
  (∀ s : State, s.run = .running → 0 < s.tapeSize → s.ip = s.progLen →
    step s = .next { s with output := s.output ++ [0x0A#8], run := .halted } ∧ hostEvent .stall s = .next s) ∧
  ∀ s t : State, step s = .next t → t.run = .faulted → t.output = s.output

/-- Derived; how the host's word reaches the fetch is the model's convention (log entry 15): the placed word's instruction
is the one the next step runs, and every other position of the program keeps its byte. -/
def Obligations.PlacedWordRunsNext : Prop :=
  ∀ (s : State) (nbits w : Nat) (i : Instr), 0 < s.tapeSize → decodeTableWord nbits w = some i →
    step (s.withFetchWord nbits w) = exec i (s.withFetchWord nbits w) ∧
    ∀ p, p ≠ s.ip → p < s.progLen → (s.withFetchWord nbits w).prog[p]? = s.prog[p]?

/-- Derived from R100, R224, R225 and R234: whatever the host does short of reset, a Halted or Faulted core keeps all of
its state. That the step function answers that same state is the model's choice (log entry 5). -/
def Obligations.OnlyResetLeavesAStoppedCore : Prop :=
  ∀ (s : State) (es : List HostEvent), s.run ≠ .running → (∀ e ∈ es, ∀ h, e ≠ .reset h) → hostRun es s = .next s

/-! ## The meanings -/

/-- R120: `+` writes `(v + 1) mod 256` to the current cell; only that cell and `IP` change. -/
def Obligations.IncrementWrapsInTheCurrentCell : Prop :=
  decodeByte 0x2B#8 = .inc ∧
  ∀ s : State, s.dp < s.tapeSize →
    ∃ t, exec .inc s = .next t ∧ t = { s with ip := s.ip + 1, tape := t.tape } ∧
      (t.tape.read s.dp).toNat = ((s.tape.read s.dp).toNat + 1) % 256 ∧
      ∀ a, a ≠ currentAddress s → t.tape.read a = s.tape.read a

/-- R121: `-` writes `(v - 1) mod 256` to the current cell; only that cell and `IP` change. -/
def Obligations.DecrementWrapsInTheCurrentCell : Prop :=
  decodeByte 0x2D#8 = .dec ∧
  ∀ s : State, s.dp < s.tapeSize →
    ∃ t, exec .dec s = .next t ∧ t = { s with ip := s.ip + 1, tape := t.tape } ∧
      ((t.tape.read s.dp).toNat : Int) = (((s.tape.read s.dp).toNat : Int) - 1) % 256 ∧
      ∀ a, a ≠ currentAddress s → t.tape.read a = s.tape.read a

/-- R130: `>` under either policy, at the last cell and before it. -/
def Obligations.RightMovesOrWrapsOrFaults : Prop :=
  decodeByte 0x3E#8 = .right ∧
  ∀ s : State, s.dp < s.tapeSize →
    (s.dp + 1 ≤ s.tapeSize - 1 → exec .right s = .next { s with dp := s.dp + 1, ip := s.ip + 1 }) ∧
    (s.dp = s.tapeSize - 1 → s.tapePolicy = .wrap → exec .right s = .next { s with dp := 0, ip := s.ip + 1 }) ∧
    (s.dp = s.tapeSize - 1 → s.tapePolicy = .fault →
      exec .right s = .next { s with run := .faulted, faultCause := .tapeBoundsError, faultIp := s.ip })

/-- R131: `<` under either policy, at the first cell and after it. -/
def Obligations.LeftMovesOrWrapsOrFaults : Prop :=
  decodeByte 0x3C#8 = .left ∧
  ∀ s : State, s.dp < s.tapeSize →
    (1 ≤ s.dp → exec .left s = .next { s with dp := s.dp - 1, ip := s.ip + 1 }) ∧
    (s.dp = 0 → s.tapePolicy = .wrap →
      exec .left s = .next { s with dp := s.tapeSize - 1, ip := s.ip + 1 }) ∧
    (s.dp = 0 → s.tapePolicy = .fault →
      exec .left s = .next { s with run := .faulted, faultCause := .tapeBoundsError, faultIp := s.ip })

/-- R145 and R144, the match counted over the program as R142 defines it: `[` falls through on a nonzero cell, jumps past
its `]` on a zero one, and faults where it has none. -/
def Obligations.JumpIfZeroSkipsTheLoop : Prop :=
  decodeByte 0x5B#8 = .jz ∧
  ∀ s : State, s.dp < s.tapeSize → s.prog[s.ip]? = some 0x5B#8 →
    (s.tape.read s.dp ≠ 0#8 → exec .jz s = .next { s with ip := s.ip + 1 }) ∧
    (s.tape.read s.dp = 0#8 → ∀ q, ForwardMatch s.prog s.ip q →
      s.prog[q]? = some 0x5D#8 ∧ exec .jz s = .next { s with ip := q + 1 }) ∧
    (s.tape.read s.dp = 0#8 → (∀ q, ¬ForwardMatch s.prog s.ip q) →
      exec .jz s = .next { s with run := .faulted, faultCause := .malformedProgram, faultIp := s.ip })

/-- R146 and R144, the match counted over the program as R142 defines it: `]` falls through on a zero cell, jumps back
past its `[` on a nonzero one, and faults where it has none. -/
def Obligations.JumpIfNonzeroRepeatsTheLoop : Prop :=
  decodeByte 0x5D#8 = .jnz ∧
  ∀ s : State, s.dp < s.tapeSize → s.prog[s.ip]? = some 0x5D#8 →
    (s.tape.read s.dp = 0#8 → exec .jnz s = .next { s with ip := s.ip + 1 }) ∧
    (s.tape.read s.dp ≠ 0#8 → ∀ q, BackwardMatch s.prog s.ip q →
      s.prog[q]? = some 0x5B#8 ∧ exec .jnz s = .next { s with ip := q + 1 }) ∧
    (s.tape.read s.dp ≠ 0#8 → (∀ q, ¬BackwardMatch s.prog s.ip q) →
      exec .jnz s = .next { s with run := .faulted, faultCause := .malformedProgram, faultIp := s.ip })

/-- R160: `.` delivers the current cell as it is; nothing else changes but `IP`. Until the host accepts, the core waits. -/
def Obligations.OutDeliversTheCurrentCell : Prop :=
  decodeByte 0x2E#8 = .out ∧
  (∀ s : State, s.dp < s.tapeSize →
    exec .out s = .next { s with output := s.output ++ [s.tape.read s.dp], ip := s.ip + 1 }) ∧
  ∀ s : State, s.run = .running → s.prog[s.ip]? = some 0x2E#8 → hostEvent .stall s = .next s

/-- R161 and R162: `,` stores the next input byte; at end of input, which is final, the cell is kept or set to 0, by the
policy, and the run goes on. Until the host answers, the core waits. -/
def Obligations.InStoresTheNextInputByte : Prop :=
  decodeByte 0x2C#8 = .inp ∧ HostSetup.unconfigured.eofPolicy = .unchanged ∧
  (∀ s : State, s.run = .running → s.prog[s.ip]? = some 0x2C#8 → hostEvent .stall s = .next s) ∧
  (∀ (s t : State) (es : List HostEvent), (∀ e ∈ es, ∀ h, e ≠ .reset h) → s.input = [] →
    hostRun es s = .next t → t.input = []) ∧
  ∀ s : State, s.dp < s.tapeSize →
    ∃ t, exec .inp s = .next t ∧
      t = { s with ip := s.ip + 1, tape := t.tape, input := s.input.tail } ∧
      (∀ b rest, s.input = b :: rest → t.tape.read s.dp = b) ∧
      (s.input = [] → s.eofPolicy = .zero → t.tape.read s.dp = 0#8) ∧
      (s.input = [] → s.eofPolicy = .unchanged → t.tape = s.tape) ∧
      ∀ a, a ≠ currentAddress s → t.tape.read a = s.tape.read a

/-- R105: a comment byte, in every state, only advances `IP`; a program made only of comments halts after `L + 1` steps
with the newline as its output. -/
def Obligations.CommentOnlyAdvances : Prop :=
  (∀ b : Byte, b ∉ [0x2B#8, 0x2C#8, 0x2D#8, 0x2E#8, 0x3C#8, 0x3E#8, 0x5B#8, 0x5D#8] → decodeByte b = .nop b) ∧
  (∀ (b : Byte) (s : State), exec (.nop b) s = .next { s with ip := s.ip + 1 }) ∧
  ∀ h : HostSetup, 0 < h.tapeSize → (∀ b ∈ h.prog, decodeByte b = .nop b) →
    hostRun (List.replicate (h.prog.length + 1) .serve) (State.ofSetup h) =
      .next { State.ofSetup h with ip := h.prog.length, run := .halted, output := [0x0A#8] }

/-! ## Frames -/

/-- Derived from R24, R27, R52, R120, R121 and R161: what `+`, `-` and `,` leave unchanged. The one byte stored to is at
`currentAddress s`; a `,` that gets EOF under `unchanged` stores nothing. -/
def Obligations.FrameOfTheStoringInstructions : Prop :=
  ∀ (i : Instr) (s t : State), i = .inc ∨ i = .dec ∨ i = .inp → exec i s = .next t →
    t.dp = s.dp ∧ t.run = s.run ∧ t.faultCause = s.faultCause ∧ t.faultIp = s.faultIp ∧ t.output = s.output ∧
    t.tapeSize = s.tapeSize ∧ t.prog = s.prog ∧ t.tapePolicy = s.tapePolicy ∧ t.eofPolicy = s.eofPolicy ∧
    (i ≠ .inp → t.input = s.input) ∧
    (∀ a, a ≠ currentAddress s → t.tape.read a = s.tape.read a) ∧
    (i = .inp → s.input = [] → s.eofPolicy = .unchanged → ∀ a, t.tape.read a = s.tape.read a)

/-- Derived from R24, R27, R52, R105, R130, R131, R145, R146 and R160: what `>`, `<`, `[`, `]`, `.` and a comment leave
unchanged: every byte of the tape, `INPUT` and the configuration; `DP` but for the moves, `OUTPUT` but for `.`, and the
run state and fault record but for the four instructions that can fault. -/
def Obligations.FrameOfTheInstructionsThatStoreNothing : Prop :=
  ∀ (i : Instr) (s t : State), i ≠ .inc → i ≠ .dec → i ≠ .inp → exec i s = .next t →
    (∀ a, t.tape.read a = s.tape.read a) ∧ t.input = s.input ∧
    t.tapeSize = s.tapeSize ∧ t.prog = s.prog ∧ t.tapePolicy = s.tapePolicy ∧ t.eofPolicy = s.eofPolicy ∧
    (i ≠ .right → i ≠ .left → t.dp = s.dp) ∧
    (i ≠ .out → t.output = s.output) ∧
    (i ≠ .right → i ≠ .left → i ≠ .jz → i ≠ .jnz →
      t.run = s.run ∧ t.faultCause = s.faultCause ∧ t.faultIp = s.faultIp)

/-! ## The Bracket Resolver -/

/-- R142: the scan's result is the matching bracket itself, and the scan agrees with the counted definition in both
directions; by the equivalence, it raises MalformedProgram exactly where there is no match. -/
def Obligations.ResolverFindsTheCountedMatch : Prop :=
  ∀ (prog : List Byte) (p : Nat),
    (prog[p]? = some 0x5B#8 →
      (∀ q, resolve prog p = some q ↔ ForwardMatch prog p q) ∧
      ∀ q, resolve prog p = some q → p < q ∧ prog[q]? = some 0x5D#8) ∧
    (prog[p]? = some 0x5D#8 →
      (∀ q, resolve prog p = some q ↔ BackwardMatch prog p q) ∧
      ∀ q, resolve prog p = some q → q < p ∧ prog[q]? = some 0x5B#8)

/-- Derived from R140 (D24): a position that holds no bracket has no match. -/
def Obligations.ResolverRefusesANonBracket : Prop :=
  ∀ (prog : List Byte) (p : Nat), prog[p]? ≠ some 0x5B#8 → prog[p]? ≠ some 0x5D#8 → resolve prog p = none

/-- Derived from R149, its first law, and its mirror image: resolving a bracket's match gives the bracket back. -/
def Obligations.ResolverRoundTrip : Prop :=
  ∀ (prog : List Byte) (p q : Nat), resolve prog p = some q →
    resolve prog q = some p ∧
    (prog[p]? = some 0x5B#8 → prog[q]? = some 0x5D#8) ∧ (prog[p]? = some 0x5D#8 → prog[q]? = some 0x5B#8)

/-- Derived from R148 and vector S5: brackets nested to any depth `D` resolve to their own partners. -/
def Obligations.NestedPairsResolveAtEveryDepth : Prop :=
  ∀ D k : Nat, k < D →
    resolve (List.replicate D 0x5B#8 ++ List.replicate D 0x5D#8) k = some (2 * D - 1 - k) ∧
    resolve (List.replicate D 0x5B#8 ++ List.replicate D 0x5D#8) (2 * D - 1 - k) = some k

/-- Derived from R148: at every position the scan passes before it ends, the nesting counter lies in `[1, L]` going
forward and in `[-L, -1]` going backward, also when the scan finds no match. -/
def Obligations.NestingCounterStaysInRange : Prop :=
  ∀ (prog : List Byte) (p : Nat),
    (prog[p]? = some 0x5B#8 → ∀ r, p ≤ r → r < (resolve prog p).getD prog.length →
      (1 : Int) ≤ 1 + countIn prog 0x5B#8 (p + 1) (r + 1) - countIn prog 0x5D#8 (p + 1) (r + 1) ∧
      (1 : Int) + countIn prog 0x5B#8 (p + 1) (r + 1) - countIn prog 0x5D#8 (p + 1) (r + 1) ≤ prog.length) ∧
    (prog[p]? = some 0x5D#8 → ∀ r, r ≤ p → (∀ q, resolve prog p = some q → q < r) →
      (-prog.length : Int) ≤ -1 + countIn prog 0x5B#8 r p - countIn prog 0x5D#8 r p ∧
      (-1 : Int) + countIn prog 0x5B#8 r p - countIn prog 0x5D#8 r p ≤ -1)

/-! ## Faults -/

/-- Derived from R222, R223 and R100: a faulting instruction writes the fault record and `RUN` and nothing else, and no
later instruction starts. That the further steps, which R100 says are not taken, answer the same state is the model's
choice (log entry 5). -/
def Obligations.FaultsArePreciseAndTerminal : Prop :=
  ∀ (i : Instr) (s t : State), s.run = .running → exec i s = .next t → t.run = .faulted →
    (t.faultCause = .malformedProgram ∨ t.faultCause = .tapeBoundsError) ∧
    t = { s with run := .faulted, faultCause := t.faultCause, faultIp := s.ip } ∧
    ∀ k, hostRun (List.replicate k .serve) t = .next t

/-- R220: the two faults, each raised exactly where the rule's table says, with the codes it gives them. -/
def Obligations.ExactlyTwoFaults : Prop :=
  (∀ s t : State, MachineInv s → s.run = .running → step s = .next t →
    (t.faultCause = .malformedProgram ↔ malformedHere s) ∧
    (t.faultCause = .tapeBoundsError ↔ offTapeHere s) ∧
    (t.run = .faulted ↔ malformedHere s ∨ offTapeHere s) ∧
    (t.run = .faulted → t.faultIp = s.ip)) ∧
  FaultCause.none.code = 0 ∧ FaultCause.malformedProgram.code = 1 ∧ FaultCause.tapeBoundsError.code = 2 ∧
  ∀ c : FaultCause, c.code ≠ 3

/-- Derived from R55; that such an access faults is the model's choice (log entry 9): with `DP` outside the tape, which no
run reaches, every instruction that reads the current cell stops by name. -/
def Obligations.AccessOffTheTapeIsNamed : Prop :=
  ∀ (i : Instr) (s : State), i = .inc ∨ i = .dec ∨ i = .jz ∨ i = .jnz ∨ i = .out → s.tapeSize ≤ s.dp →
    exec i s = .fault (.tapeAddressOutOfRange s.dp)

/-! ## The whole machine -/

/-- Derived from R33: every step keeps the invariants, from every state that meets them. -/
def Obligations.StepKeepsTheInvariants : Prop :=
  ∀ s t : State, MachineInv s → step s = .next t → MachineInv t

/-- Derived from R33 and R26: whatever program the host loads, whatever it inputs, however it stalls and wherever it asserts
a legal reset, the core has a next state and the invariants hold in it. The tape's canonical form among them is the
model's (log entry 20), and so is the next state of a served core that is Halted or Faulted (log entry 5). -/
def Obligations.EveryReachedStateMeetsTheInvariants : Prop :=
  ∀ (h : HostSetup) (es : List HostEvent), 0 < h.tapeSize → (∀ g, HostEvent.reset g ∈ es → 0 < g.tapeSize) →
    ∃ t, hostRun es (State.ofSetup h) = .next t ∧ MachineInv t

/-- Derived from R33, R55, R83 and R101: a core that meets the invariants always has a next state; no instruction, byte or
data ends a run by a refusal or a model fault. For a Halted or Faulted core, of which R100 says that it takes no step,
that step answers a next state is the model's choice (log entry 5). -/
def Obligations.StepAlwaysHasANextState : Prop :=
  ∀ s : State, MachineInv s → ∃ t, step s = .next t

/-- Derived from R132, R144 and R220: the fault record, once written, is justified by the program, the cell, `DP` and the
policy that stand beside it, and every step keeps that so. -/
def Obligations.FaultRecordStaysJustified : Prop :=
  ∀ s t : State, MachineInv s → FaultJustified s → step s = .next t → FaultJustified t

/-- Derived from R102 and R107: `Halted` is entered only from the sentinel, and a halted core's output ends with the
newline. -/
def Obligations.HaltingLeavesTheNewlineLast : Prop :=
  ∀ s t : State, MachineInv s → HaltedAfterNewline s → step s = .next t →
    HaltedAfterNewline t ∧ (s.run = .running → (t.run = .halted ↔ s.ip = s.progLen))

/-- Derived from R104 (and C3): where `IP` goes in a step that neither halts nor faults. -/
def Obligations.WhereTheInstructionPointerGoes : Prop :=
  ∀ s t : State, MachineInv s → s.run = .running → step s = .next t → t.run = .running →
    (s.prog[s.ip]? = some 0x5B#8 → s.tape.read s.dp = 0#8 → ∃ q, ForwardMatch s.prog s.ip q ∧ t.ip = q + 1) ∧
    (s.prog[s.ip]? = some 0x5D#8 → s.tape.read s.dp ≠ 0#8 → ∃ q, BackwardMatch s.prog s.ip q ∧ t.ip = q + 1) ∧
    (¬(s.prog[s.ip]? = some 0x5B#8 ∧ s.tape.read s.dp = 0#8) →
      ¬(s.prog[s.ip]? = some 0x5D#8 ∧ s.tape.read s.dp ≠ 0#8) → t.ip = s.ip + 1)

/-- Derived from R31 and R52: short of reset, nothing changes the configuration or the program. -/
def Obligations.ConfigurationIsConstantInARun : Prop :=
  ∀ (s t : State) (es : List HostEvent), (∀ e ∈ es, ∀ h, e ≠ .reset h) → hostRun es s = .next t →
    t.tapeSize = s.tapeSize ∧ t.prog = s.prog ∧ t.progLen = s.progLen ∧ t.tapePolicy = s.tapePolicy ∧
    t.eofPolicy = s.eofPolicy

/-- Derived from R23, R24 and R59: a step changes no cell but the current one, that one only at `+`, `-` or `,`, and `DP`
only at `>` or `<`. -/
def Obligations.OnlyTheCurrentCellChanges : Prop :=
  ∀ s t : State, step s = .next t →
    (∀ a, a ≠ s.dp → t.tape.read a = s.tape.read a) ∧
    (t.tape ≠ s.tape → s.run = .running ∧
      (s.prog[s.ip]? = some 0x2B#8 ∨ s.prog[s.ip]? = some 0x2D#8 ∨ s.prog[s.ip]? = some 0x2C#8)) ∧
    (t.dp ≠ s.dp → s.run = .running ∧ (s.prog[s.ip]? = some 0x3E#8 ∨ s.prog[s.ip]? = some 0x3C#8))

/-- Derived from R59, R62 and R67: what a step delivers on OUT: the cell at `.`, the newline at the sentinel, nothing
otherwise; bytes already delivered stay. -/
def Obligations.WhatAStepDelivers : Prop :=
  ∀ s t : State, step s = .next t →
    (s.run = .running → s.prog[s.ip]? = some 0x2E#8 → t.output = s.output ++ [s.tape.read s.dp]) ∧
    (s.run = .running → s.ip = s.progLen → t.output = s.output ++ [0x0A#8]) ∧
    (¬(s.run = .running ∧ (s.prog[s.ip]? = some 0x2E#8 ∨ s.ip = s.progLen)) → t.output = s.output)

/-- Derived from R30, R59 and R61: only `,` takes a byte from INPUT, the first one, and at most one. -/
def Obligations.WhatAStepConsumes : Prop :=
  ∀ s t : State, step s = .next t →
    (s.run = .running → s.prog[s.ip]? = some 0x2C#8 → t.input = s.input.tail) ∧
    (¬(s.run = .running ∧ s.prog[s.ip]? = some 0x2C#8) → t.input = s.input)

/-! ## What a step cannot learn -/

/-- Derived from R30: the program cannot read OUTPUT: with any other bytes delivered before, the step does the same and
delivers the same. -/
def Obligations.OutputIsUnreadable : Prop :=
  ∀ (s t : State) (o : List Byte), step s = .next t →
    ∃ delivered, t.output = s.output ++ delivered ∧
      step { s with output := o } = .next { t with output := o ++ delivered }

/-- Derived from R30 and R61: no step but that of `,` depends on INPUT, and `,` depends on its first byte alone. -/
def Obligations.OnlyInLearnsTheInput : Prop :=
  ∀ (s t : State), step s = .next t →
    (¬(s.run = .running ∧ s.prog[s.ip]? = some 0x2C#8) →
      ∀ bs, step { s with input := bs } = .next { t with input := bs }) ∧
    (s.run = .running → s.prog[s.ip]? = some 0x2C#8 → ∀ b rest, s.input = b :: rest →
      ∀ bs, step { s with input := b :: bs } = .next { t with input := bs })

/-- Derived from R20 and R24: a step depends on no cell but the current one: on a tape that agrees there, it does the same
to the current cell and to every other piece of state, and keeps that tape's other cells. -/
def Obligations.OtherCellsDoNotMatter : Prop :=
  ∀ (s t : State) (m : Memory), m.read s.dp = s.tape.read s.dp → step s = .next t →
    ∃ m', step { s with tape := m } = .next { t with tape := m' } ∧ m'.read s.dp = t.tape.read s.dp ∧
      ∀ a, a ≠ s.dp → m'.read a = m.read a

/-- Derived from R147: a taken jump lands where it would land if the matching bracket were executed again, so the two
readings that C2 settles cannot be told apart but by counting steps. -/
def Obligations.RereadingTheBracketChangesNothing : Prop :=
  ∀ (s : State) (q : Nat), MachineInv s → s.run = .running →
    (s.prog[s.ip]? = some 0x5B#8 → s.tape.read s.dp = 0#8 → resolve s.prog s.ip = some q →
      step s = .next { s with ip := q + 1 } ∧ step { s with ip := q } = .next { s with ip := q + 1 }) ∧
    (s.prog[s.ip]? = some 0x5D#8 → s.tape.read s.dp ≠ 0#8 → resolve s.prog s.ip = some q →
      step s = .next { s with ip := q + 1 } ∧ step { s with ip := q } = .next { s with ip := q + 1 })

/-! ## Runs of one instruction -/

/-- Derived from R120 to R123: `k` times `+` adds `k` and `k` times `-` subtracts `k`, modulo 256, and the two undo each
other; and the wraparound law: a program of `k` copies of `+`, launched on a fresh tape, halts after `k + 1` steps with
`k mod 256` in cell 0. -/
def Obligations.RunsOfCellArithmetic : Prop :=
  (∀ (s : State) (k : Nat), s.run = .running → s.dp < s.tapeSize →
    (∃ t, execSeq (List.replicate k .inc) s = .next t ∧ t = { s with ip := s.ip + k, tape := t.tape } ∧
      (t.tape.read s.dp).toNat = ((s.tape.read s.dp).toNat + k) % 256 ∧
      ∀ a, a ≠ s.dp → t.tape.read a = s.tape.read a) ∧
    (∃ t, execSeq (List.replicate k .dec) s = .next t ∧ t = { s with ip := s.ip + k, tape := t.tape } ∧
      ((t.tape.read s.dp).toNat : Int) = (((s.tape.read s.dp).toNat : Int) - k) % 256 ∧
      ∀ a, a ≠ s.dp → t.tape.read a = s.tape.read a) ∧
    (∃ t, execSeq [.inc, .dec] s = .next t ∧ ∀ a, t.tape.read a = s.tape.read a) ∧
    (∃ t, execSeq [.dec, .inc] s = .next t ∧ ∀ a, t.tape.read a = s.tape.read a)) ∧
  ∀ (h : HostSetup) (k : Nat), 0 < h.tapeSize → h.prog = List.replicate k 0x2B#8 →
    ∃ t, hostRun (List.replicate (k + 1) .serve) (State.ofSetup h) = .next t ∧
      t = { State.ofSetup h with ip := k, tape := t.tape, run := .halted, output := [0x0A#8] } ∧
      (t.tape.read 0).toNat = k % 256 ∧ ∀ a, a ≠ 0 → t.tape.read a = 0#8

/-- Derived from R133: `k` times `>` under either policy, the fault at the `(N - d)`-th one included, and that `>` and `<`
undo each other wherever neither faults. -/
def Obligations.RunsOfPointerMoves : Prop :=
  ∀ (s : State) (k : Nat), s.run = .running → s.dp < s.tapeSize →
    (s.tapePolicy = .wrap →
      execSeq (List.replicate k .right) s = .next { s with ip := s.ip + k, dp := (s.dp + k) % s.tapeSize }) ∧
    (s.tapePolicy = .fault → s.dp + k < s.tapeSize →
      execSeq (List.replicate k .right) s = .next { s with ip := s.ip + k, dp := s.dp + k }) ∧
    (s.tapePolicy = .fault → s.tapeSize ≤ s.dp + k →
      execSeq (List.replicate k .right) s = .next { s with
        ip := s.ip + (s.tapeSize - s.dp - 1), dp := s.tapeSize - 1, run := .faulted,
        faultCause := .tapeBoundsError, faultIp := s.ip + (s.tapeSize - s.dp - 1) }) ∧
    (s.tapePolicy = .wrap ∨ s.dp + 1 < s.tapeSize →
      execSeq [.right, .left] s = .next { s with ip := s.ip + 2 }) ∧
    (s.tapePolicy = .wrap ∨ 1 ≤ s.dp → execSeq [.left, .right] s = .next { s with ip := s.ip + 2 })

/-! ## The host's side -/

/-- R234: the core waits in exactly two places, a waiting core keeps all of its state, where the core does not wait the
step transfers nothing, and a Halted or Faulted core stays as it is until reset. -/
def Obligations.WaitsInExactlyTwoPlaces : Prop :=
  ∀ s : State,
    (pendingTransfer s = some .input ↔ s.run = .running ∧ s.prog[s.ip]? = some 0x2C#8) ∧
    (pendingTransfer s = some .output ↔
      s.run = .running ∧ (s.prog[s.ip]? = some 0x2E#8 ∨ s.ip = s.progLen)) ∧
    (pendingTransfer s ≠ none → s.run = .running ∧ hostEvent .stall s = .next s) ∧
    (pendingTransfer s = none → hostEvent .stall s = step s ∧
      ∀ t, step s = .next t → t.input = s.input ∧ t.output = s.output) ∧
    (s.run ≠ .running → ∀ e, (∀ h, e ≠ .reset h) → hostEvent e s = .next s)

/-- Derived from R25, R26 and R51: `STATUS` reads, in every state, the code of `RUN`, the code of `FAULT_CAUSE` and
`FAULT_IP`; what the codes are; and what the fault record reads in a core that is Faulted and in one that is not. -/
def Obligations.StatusReadsTheCodes : Prop :=
  RunState.running.code = 0 ∧ RunState.halted.code = 1 ∧ RunState.faulted.code = 2 ∧
  FaultCause.none.code = 0 ∧ FaultCause.malformedProgram.code = 1 ∧ FaultCause.tapeBoundsError.code = 2 ∧
  (∀ s : State, (status s).run = s.run.code ∧ (status s).faultCause = s.faultCause.code ∧
    (status s).faultIp = s.faultIp) ∧
  ∀ s : State, MachineInv s →
    (s.run ≠ .faulted → (status s).faultCause = 0 ∧ (status s).faultIp = 0) ∧
    (s.run = .faulted → ((status s).faultCause = 1 ∨ (status s).faultCause = 2) ∧ (status s).faultIp = s.ip ∧
      (status s).faultIp < s.progLen)

/-- Derived from R229: a halted run corresponds to exit status 0, a faulted one to a nonzero status, whatever it is. -/
def Obligations.ExitStatusTellsHowTheRunEnded : Prop :=
  ∀ s : State,
    (s.run = .running → exitStatus s = none) ∧ (s.run = .halted → exitStatus s = some 0) ∧
    (s.run = .faulted → ∃ n, n ≠ 0 ∧ exitStatus s = some n)

/-- Derived from R24 and R65; the list form of the tape is the model's: two tapes in canonical form that read alike at
every address are the same data. -/
def Obligations.TapesThatReadAlikeAreEqual : Prop :=
  ∀ m n : Memory, m.wf → n.wf → (∀ a, m.read a = n.read a) → m = n
end

