-- ==== Sys2Proof/Laws/Resolver.lean ====
section
/-! SUPPORT. The resolver's scan, said once: which position it stops at, in terms of the depth of nesting before each
position; that it stays inside the program; and that the bound on its passes is never what ends it (log entry 10). -/

namespace Sys2Proof.Machine

/-- How many more `[` than `]` stand before position `n`: a notion of the proofs, not of the machine. -/
def nestingDepth (prog : List Byte) : Nat → Int
  | 0 => 0
  | n + 1 => nestingDepth prog n + bracketWeight (prog.getD n 0#8)

@[simp] theorem nestingDepth_zero (prog : List Byte) : nestingDepth prog 0 = 0 := rfl

theorem nestingDepth_succ (prog : List Byte) (n : Nat) :
    nestingDepth prog (n + 1) = nestingDepth prog n + bracketWeight (prog.getD n 0#8) := rfl

theorem bracketWeight_open : bracketWeight 0x5B#8 = 1 := rfl

theorem bracketWeight_close : bracketWeight 0x5D#8 = -1 := rfl

theorem bracketWeight_cases (b : Byte) :
    (b = 0x5B#8 ∧ bracketWeight b = 1) ∨ (b = 0x5D#8 ∧ bracketWeight b = -1) ∨
      (b ≠ 0x5B#8 ∧ b ≠ 0x5D#8 ∧ bracketWeight b = 0) := by
  unfold bracketWeight
  by_cases h1 : b = 0x5B#8
  · simp [h1]
  · by_cases h2 : b = 0x5D#8
    · simp [h2]
    · simp [h1, h2]

/-- A forward scan from `s`, with the counter `c`, stops at the first `q > s` where `c` plus the weights of the positions
`s+1` to `q` is 0; it needs at most `L - s` passes. -/
theorem scan_up_spec (prog : List Byte) (passes s : Nat) (c : Int) (hs : s < prog.length)
    (hp : prog.length ≤ passes + s) (q : Nat) :
    scan prog 1 passes s c = some q ↔
      s < q ∧ q < prog.length ∧ c + nestingDepth prog (q + 1) - nestingDepth prog (s + 1) = 0 ∧
        ∀ r, s < r → r < q → c + nestingDepth prog (r + 1) - nestingDepth prog (s + 1) ≠ 0 := by
  induction passes generalizing s c with
  | zero => omega
  | succ n ih =>
    have hn : ((s : Int) + 1).toNat = s + 1 := by omega
    have hd := nestingDepth_succ prog (s + 1)
    by_cases hend : (prog.length : Int) ≤ s + 1
    · simp only [scan, hend, or_true, if_true]
      constructor
      · simp
      · rintro ⟨h1, h2, -⟩; omega
    · have hb : ¬((s : Int) + 1 < 0 ∨ (prog.length : Int) ≤ s + 1) := by omega
      simp only [scan, hb, if_false, hn]
      split
      case isTrue hc =>
        simp only [Option.some.injEq]
        constructor
        · rintro rfl
          exact ⟨by omega, by omega, by omega, fun r h1 h2 => by omega⟩
        · rintro ⟨h1, h2, h3, h4⟩
          by_contra hne
          exact h4 (s + 1) (by omega) (by omega) (by omega)
      case isFalse hc =>
        have := ih (s + 1) (c + bracketWeight (prog.getD (s + 1) 0#8)) (by omega) (by omega)
        rw [show (((s + 1 : Nat)) : Int) = (s : Int) + 1 by simp] at this
        rw [this]
        constructor
        · rintro ⟨h1, h2, h3, h4⟩
          refine ⟨by omega, h2, by omega, fun r hr1 hr2 => ?_⟩
          by_cases hr : r = s + 1
          · subst hr; omega
          · have := h4 r (by omega) hr2; omega
        · rintro ⟨h1, h2, h3, h4⟩
          have hq : q ≠ s + 1 := by rintro rfl; omega
          refine ⟨by omega, h2, by omega, fun r hr1 hr2 => ?_⟩
          have := h4 r (by omega) hr2; omega

/-- A backward scan from `s`, with the counter `c`, stops at the first `q < s` where `c` plus the weights of the positions
`q` to `s-1` is 0; it needs at most `s + 1` passes. -/
theorem scan_down_spec (prog : List Byte) (passes s : Nat) (c : Int) (hs : s < prog.length) (hp : s < passes)
    (q : Nat) :
    scan prog (-1) passes s c = some q ↔
      q < s ∧ c + nestingDepth prog s - nestingDepth prog q = 0 ∧
        ∀ r, q < r → r < s → c + nestingDepth prog s - nestingDepth prog r ≠ 0 := by
  induction passes generalizing s c with
  | zero => omega
  | succ n ih =>
    cases s with
    | zero =>
      have hb : (((0 : Nat) : Int) + -1 < 0 ∨ (prog.length : Int) ≤ ((0 : Nat) : Int) + -1) := by simp
      simp only [scan, hb, if_true]
      constructor
      · simp
      · rintro ⟨h1, -⟩; omega
    | succ s =>
      have hz : ((s + 1 : Nat) : Int) + -1 = (s : Int) := by omega
      have hn : ((s : Int)).toNat = s := by omega
      have hd := nestingDepth_succ prog s
      have hb : ¬((s : Int) < 0 ∨ (prog.length : Int) ≤ s) := by omega
      simp only [scan, hz, hb, if_false, hn]
      split
      case isTrue hc =>
        simp only [Option.some.injEq]
        constructor
        · rintro rfl
          exact ⟨by omega, by omega, fun r h1 h2 => by omega⟩
        · rintro ⟨h1, h2, h3⟩
          by_contra hne
          exact h3 s (by omega) (by omega) (by omega)
      case isFalse hc =>
        rw [ih s (c + bracketWeight (prog.getD s 0#8)) (by omega) (by omega)]
        constructor
        · rintro ⟨h1, h2, h3⟩
          refine ⟨by omega, by omega, fun r hr1 hr2 => ?_⟩
          by_cases hr : r = s
          · subst hr; omega
          · have := h3 r hr1 (by omega); omega
        · rintro ⟨h1, h2, h3⟩
          have hq : q ≠ s := by rintro rfl; omega
          refine ⟨by omega, by omega, fun r hr1 hr2 => ?_⟩
          have := h3 r hr1 (by omega); omega

/-- With `L` passes or more, the number of passes does not show in the result of a scan that `resolve` starts. -/
theorem scan_passes_irrelevant (prog : List Byte) {p m : Nat} (hp : p < prog.length) (hm : prog.length ≤ m) (c : Int) :
    scan prog 1 m p c = scan prog 1 prog.length p c ∧ scan prog (-1) m p c = scan prog (-1) prog.length p c := by
  constructor
  · refine Option.ext fun q => ?_
    rw [scan_up_spec prog m p c hp (by omega), scan_up_spec prog prog.length p c hp (by omega)]
  · refine Option.ext fun q => ?_
    rw [scan_down_spec prog m p c hp (by omega), scan_down_spec prog prog.length p c hp hp]

theorem resolve_of_open {prog : List Byte} {p : Nat} (h : prog[p]? = some 0x5B#8) :
    resolve prog p = scan prog 1 prog.length p 1 := by rw [resolve, if_pos h]

theorem resolve_of_close {prog : List Byte} {p : Nat} (h : prog[p]? = some 0x5D#8) :
    resolve prog p = scan prog (-1) prog.length p (-1) := by
  rw [resolve, if_neg (by rw [h]; decide), if_pos h]

/-- What `resolve` answers lies inside the program, and was asked for at a bracket. -/
theorem resolve_some {prog : List Byte} {p q : Nat} (h : resolve prog p = some q) :
    q < prog.length ∧ (prog[p]? = some 0x5B#8 ∨ prog[p]? = some 0x5D#8) := by
  unfold resolve at h
  split at h
  case isTrue ho =>
    obtain ⟨hp, -⟩ := List.getElem?_eq_some_iff.1 ho
    exact ⟨((scan_up_spec prog _ p 1 hp (by omega) q).1 h).2.1, .inl ho⟩
  case isFalse =>
    split at h
    case isTrue hc =>
      obtain ⟨hp, -⟩ := List.getElem?_eq_some_iff.1 hc
      exact ⟨by have := ((scan_down_spec prog _ p (-1) hp hp q).1 h).1; omega, .inr hc⟩
    case isFalse => exact absurd h (by simp)

end Sys2Proof.Machine
end

