-- ==== Sys2Proof/Laws/Brackets.lean ====
section
/-! SUPPORT. Counting bytes over a stretch of the program, one position at a time, and its link to the nesting depth that
the scan's lemmas speak of. -/

namespace Sys2Proof

open Sys2Proof.Machine

@[simp] theorem countIn_self (prog : List Byte) (b : Byte) (lo : Nat) : countIn prog b lo lo = 0 := by simp [countIn]

theorem countIn_succ (prog : List Byte) (b : Byte) {lo hi : Nat} (h : lo ≤ hi) (hh : hi < prog.length) :
    countIn prog b lo (hi + 1) = countIn prog b lo hi + if prog.getD hi 0#8 = b then 1 else 0 := by
  unfold countIn
  rw [show hi + 1 - lo = (hi - lo) + 1 by omega, List.take_add_one, List.count_append]
  congr 1
  rw [List.getElem?_drop, show lo + (hi - lo) = hi by omega, List.getElem?_eq_getElem hh]
  simp [List.getD, List.getElem?_eq_getElem hh, List.count_singleton]

/-- Over a stretch of the program, `[` less `]` is the rise of the nesting depth. -/
theorem countIn_eq_depth (prog : List Byte) {lo hi : Nat} (h : lo ≤ hi) (hh : hi ≤ prog.length) :
    (countIn prog 0x5B#8 lo hi : Int) - countIn prog 0x5D#8 lo hi =
      nestingDepth prog hi - nestingDepth prog lo := by
  induction hi, h using Nat.le_induction with
  | base => simp
  | succ hi h ih =>
    have := ih (by omega)
    rw [countIn_succ _ _ h (by omega), countIn_succ _ _ h (by omega), nestingDepth_succ]
    rcases bracketWeight_cases (prog.getD hi 0#8) with ⟨h1, h2⟩ | ⟨h1, h2⟩ | ⟨h1, h1', h2⟩
    · rw [h2, h1]; simp; omega
    · rw [h2, h1]; simp; omega
    · rw [h2, if_neg h1, if_neg h1']; omega

end Sys2Proof
end

