-- ==== Sys2Proof/Laws/Memory.lean ====
section
/-! SUPPORT. What the tape's operations do, said once: a read after a write (R55, R65), and that they keep the canonical
form, in which two memories that read alike are the same list. -/

namespace Sys2Proof.Machine

@[simp] theorem Memory.read_nil (a : Nat) : Memory.read [] a = 0#8 := rfl

theorem Memory.read_erase_same (m : Memory) (a : Nat) : (m.erase a).read a = 0#8 := by
  induction m with
  | nil => rfl
  | cons c m ih => by_cases h : c.1 = a <;> simp [Memory.erase, Memory.read, h, ih]

theorem Memory.read_erase_other (m : Memory) {a b : Nat} (h : b ≠ a) : (m.erase a).read b = m.read b := by
  induction m with
  | nil => rfl
  | cons c m ih =>
    by_cases hc : c.1 = a
    · simp [Memory.erase, Memory.read, hc, ih, h.symm]
    · simp [Memory.erase, Memory.read, hc, ih]

theorem Memory.mem_erase {m : Memory} {a : Nat} {c : Host.Cell} (h : c ∈ m.erase a) : c ∈ m ∧ c.1 ≠ a := by
  induction m with
  | nil => simp [Memory.erase] at h
  | cons d m ih =>
    by_cases hd : d.1 = a
    · simp only [Memory.erase, hd, if_true] at h
      exact ⟨List.mem_cons_of_mem _ (ih h).1, (ih h).2⟩
    · simp only [Memory.erase, hd, if_false, List.mem_cons] at h
      rcases h with rfl | h
      · exact ⟨List.mem_cons_self, hd⟩
      · exact ⟨List.mem_cons_of_mem _ (ih h).1, (ih h).2⟩

theorem Memory.mem_insert {m : Memory} {a : Nat} {v : Byte} {c : Host.Cell} :
    c ∈ m.insert a v ↔ c = (a, v) ∨ c ∈ m := by
  induction m with
  | nil => simp [Memory.insert]
  | cons d m ih =>
    by_cases hd : a < d.1
    · simp [Memory.insert, hd]
    · simp only [Memory.insert, hd, if_false, List.mem_cons, ih]; tauto

/-- An insertion at an address that no entry holds is read back; other addresses read as before. -/
theorem Memory.read_insert (m : Memory) (a : Nat) (v : Byte) (hm : ∀ c ∈ m, c.1 ≠ a) (b : Nat) :
    (m.insert a v).read b = if b = a then v else m.read b := by
  induction m with
  | nil => simp [Memory.insert, Memory.read, eq_comm]
  | cons d m ih =>
    have hd : d.1 ≠ a := hm d List.mem_cons_self
    by_cases hlt : a < d.1
    · simp [Memory.insert, hlt, Memory.read, eq_comm]
    · simp only [Memory.insert, hlt, if_false, Memory.read, ih fun c hc => hm c (List.mem_cons_of_mem _ hc)]
      by_cases hb : d.1 = b
      · simp [hb, show b ≠ a from hb ▸ hd]
      · simp [hb]

/-- `MemWrite` then `MemRead` (R55, R65), at the written address and at any other. -/
theorem Memory.read_write (m : Memory) (a : Nat) (v : Byte) (b : Nat) :
    (m.write a v).read b = if b = a then v else m.read b := by
  by_cases hv : v = 0#8
  · by_cases hb : b = a
    · simp [Memory.write, hv, hb, Memory.read_erase_same]
    · simp [Memory.write, hv, hb, Memory.read_erase_other m hb]
  · simp only [Memory.write, hv, if_false]
    rw [Memory.read_insert _ _ _ fun c hc => (Memory.mem_erase hc).2]
    by_cases hb : b = a
    · simp [hb]
    · simp [hb, Memory.read_erase_other m hb]

@[simp] theorem Memory.read_write_same (m : Memory) (a : Nat) (v : Byte) : (m.write a v).read a = v := by
  simp [Memory.read_write]

theorem Memory.read_write_other (m : Memory) (v : Byte) {a b : Nat} (h : b ≠ a) : (m.write a v).read b = m.read b := by
  simp [Memory.read_write, h]

theorem Memory.erase_wf {m : Memory} (a : Nat) (h : m.wf) : (m.erase a).wf := by
  refine ⟨?_, fun c hc => h.2 c (Memory.mem_erase hc).1⟩
  have hp := h.1
  clear h
  induction m with
  | nil => exact List.Pairwise.nil
  | cons c m ih =>
    rw [List.pairwise_cons] at hp
    by_cases hc : c.1 = a
    · simpa [Memory.erase, hc] using ih hp.2
    · simp only [Memory.erase, hc, if_false, List.pairwise_cons]
      exact ⟨fun d hd => hp.1 d (Memory.mem_erase hd).1, ih hp.2⟩

theorem Memory.insert_wf {m : Memory} {a : Nat} {v : Byte} (hm : ∀ c ∈ m, c.1 ≠ a) (hv : v ≠ 0#8) (h : m.wf) :
    (m.insert a v).wf := by
  refine ⟨?_, fun c hc => ?_⟩
  · have hp := h.1
    clear h
    induction m with
    | nil => exact List.pairwise_singleton _ _
    | cons c m ih =>
      rw [List.pairwise_cons] at hp
      by_cases hlt : a < c.1
      · simp only [Memory.insert, hlt, if_true, List.pairwise_cons, List.mem_cons]
        refine ⟨?_, hp.1, hp.2⟩
        rintro d (rfl | hd)
        · exact hlt
        · exact hlt.trans (hp.1 d hd)
      · simp only [Memory.insert, hlt, if_false, List.pairwise_cons]
        refine ⟨fun d hd => ?_, ih (fun d hd => hm d (List.mem_cons_of_mem _ hd)) hp.2⟩
        rcases Memory.mem_insert.1 hd with rfl | hd
        · exact lt_of_le_of_ne (not_lt.1 hlt) (hm c List.mem_cons_self)
        · exact hp.1 d hd
  · rcases Memory.mem_insert.1 hc with rfl | hc
    · exact hv
    · exact h.2 c hc

/-- A write keeps the canonical form. -/
theorem Memory.write_wf {m : Memory} (a : Nat) (v : Byte) (h : m.wf) : (m.write a v).wf := by
  by_cases hv : v = 0#8
  · rw [Memory.write, if_pos hv]
    exact Memory.erase_wf a h
  · rw [Memory.write, if_neg hv]
    exact Memory.insert_wf (fun c hc => (Memory.mem_erase hc).2) hv (Memory.erase_wf a h)

/-- A write below the bound keeps every entry below it. -/
theorem Memory.write_bound {m : Memory} {a n : Nat} (v : Byte) (h : ∀ c ∈ m, c.1 < n) (ha : a < n) :
    ∀ c ∈ m.write a v, c.1 < n := by
  intro c hc
  by_cases hv : v = 0#8
  · simp only [Memory.write, hv, if_true] at hc
    exact h c (Memory.mem_erase hc).1
  · simp only [Memory.write, hv, if_false] at hc
    rcases Memory.mem_insert.1 hc with rfl | hc
    · exact ha
    · exact h c (Memory.mem_erase hc).1

/-- Reset's tape lists nothing, and so is canonical. -/
theorem Memory.ofSetup_wf (h : HostSetup) : (State.ofSetup h).tape.wf := ⟨List.Pairwise.nil, by simp [State.ofSetup]⟩

end Sys2Proof.Machine
end

