-- ==== Sys2Proof/Laws/State.lean ====
section
/-! SUPPORT. One lemma per field of State per update of Machine/Ops.lean, so that no proof unfolds a record update. -/

namespace Sys2Proof.Machine

variable (s : State)

@[simp] theorem State.setIp_ip (v : Nat) : (s.setIp v).ip = v := rfl
@[simp] theorem State.setIp_dp (v : Nat) : (s.setIp v).dp = s.dp := rfl
@[simp] theorem State.setIp_tape (v : Nat) : (s.setIp v).tape = s.tape := rfl
@[simp] theorem State.setIp_run (v : Nat) : (s.setIp v).run = s.run := rfl
@[simp] theorem State.setIp_faultCause (v : Nat) : (s.setIp v).faultCause = s.faultCause := rfl
@[simp] theorem State.setIp_faultIp (v : Nat) : (s.setIp v).faultIp = s.faultIp := rfl
@[simp] theorem State.setIp_input (v : Nat) : (s.setIp v).input = s.input := rfl
@[simp] theorem State.setIp_output (v : Nat) : (s.setIp v).output = s.output := rfl
@[simp] theorem State.setIp_tapeSize (v : Nat) : (s.setIp v).tapeSize = s.tapeSize := rfl
@[simp] theorem State.setIp_prog (v : Nat) : (s.setIp v).prog = s.prog := rfl
@[simp] theorem State.setIp_tapePolicy (v : Nat) : (s.setIp v).tapePolicy = s.tapePolicy := rfl
@[simp] theorem State.setIp_eofPolicy (v : Nat) : (s.setIp v).eofPolicy = s.eofPolicy := rfl

@[simp] theorem State.setDp_ip (v : Nat) : (s.setDp v).ip = s.ip := rfl
@[simp] theorem State.setDp_dp (v : Nat) : (s.setDp v).dp = v := rfl
@[simp] theorem State.setDp_tape (v : Nat) : (s.setDp v).tape = s.tape := rfl
@[simp] theorem State.setDp_run (v : Nat) : (s.setDp v).run = s.run := rfl
@[simp] theorem State.setDp_faultCause (v : Nat) : (s.setDp v).faultCause = s.faultCause := rfl
@[simp] theorem State.setDp_faultIp (v : Nat) : (s.setDp v).faultIp = s.faultIp := rfl
@[simp] theorem State.setDp_input (v : Nat) : (s.setDp v).input = s.input := rfl
@[simp] theorem State.setDp_output (v : Nat) : (s.setDp v).output = s.output := rfl
@[simp] theorem State.setDp_tapeSize (v : Nat) : (s.setDp v).tapeSize = s.tapeSize := rfl
@[simp] theorem State.setDp_prog (v : Nat) : (s.setDp v).prog = s.prog := rfl
@[simp] theorem State.setDp_tapePolicy (v : Nat) : (s.setDp v).tapePolicy = s.tapePolicy := rfl
@[simp] theorem State.setDp_eofPolicy (v : Nat) : (s.setDp v).eofPolicy = s.eofPolicy := rfl

@[simp] theorem State.setTape_ip (m : Memory) : (s.setTape m).ip = s.ip := rfl
@[simp] theorem State.setTape_dp (m : Memory) : (s.setTape m).dp = s.dp := rfl
@[simp] theorem State.setTape_tape (m : Memory) : (s.setTape m).tape = m := rfl
@[simp] theorem State.setTape_run (m : Memory) : (s.setTape m).run = s.run := rfl
@[simp] theorem State.setTape_faultCause (m : Memory) : (s.setTape m).faultCause = s.faultCause := rfl
@[simp] theorem State.setTape_faultIp (m : Memory) : (s.setTape m).faultIp = s.faultIp := rfl
@[simp] theorem State.setTape_input (m : Memory) : (s.setTape m).input = s.input := rfl
@[simp] theorem State.setTape_output (m : Memory) : (s.setTape m).output = s.output := rfl
@[simp] theorem State.setTape_tapeSize (m : Memory) : (s.setTape m).tapeSize = s.tapeSize := rfl
@[simp] theorem State.setTape_prog (m : Memory) : (s.setTape m).prog = s.prog := rfl
@[simp] theorem State.setTape_tapePolicy (m : Memory) : (s.setTape m).tapePolicy = s.tapePolicy := rfl
@[simp] theorem State.setTape_eofPolicy (m : Memory) : (s.setTape m).eofPolicy = s.eofPolicy := rfl

@[simp] theorem State.setRun_ip (r : RunState) : (s.setRun r).ip = s.ip := rfl
@[simp] theorem State.setRun_dp (r : RunState) : (s.setRun r).dp = s.dp := rfl
@[simp] theorem State.setRun_tape (r : RunState) : (s.setRun r).tape = s.tape := rfl
@[simp] theorem State.setRun_run (r : RunState) : (s.setRun r).run = r := rfl
@[simp] theorem State.setRun_faultCause (r : RunState) : (s.setRun r).faultCause = s.faultCause := rfl
@[simp] theorem State.setRun_faultIp (r : RunState) : (s.setRun r).faultIp = s.faultIp := rfl
@[simp] theorem State.setRun_input (r : RunState) : (s.setRun r).input = s.input := rfl
@[simp] theorem State.setRun_output (r : RunState) : (s.setRun r).output = s.output := rfl
@[simp] theorem State.setRun_tapeSize (r : RunState) : (s.setRun r).tapeSize = s.tapeSize := rfl
@[simp] theorem State.setRun_prog (r : RunState) : (s.setRun r).prog = s.prog := rfl
@[simp] theorem State.setRun_tapePolicy (r : RunState) : (s.setRun r).tapePolicy = s.tapePolicy := rfl
@[simp] theorem State.setRun_eofPolicy (r : RunState) : (s.setRun r).eofPolicy = s.eofPolicy := rfl

@[simp] theorem State.setFaultRecord_ip (c : FaultCause) (p : Nat) : (s.setFaultRecord c p).ip = s.ip := rfl
@[simp] theorem State.setFaultRecord_dp (c : FaultCause) (p : Nat) : (s.setFaultRecord c p).dp = s.dp := rfl
@[simp] theorem State.setFaultRecord_tape (c : FaultCause) (p : Nat) : (s.setFaultRecord c p).tape = s.tape := rfl
@[simp] theorem State.setFaultRecord_run (c : FaultCause) (p : Nat) : (s.setFaultRecord c p).run = s.run := rfl
@[simp] theorem State.setFaultRecord_faultCause (c : FaultCause) (p : Nat) : (s.setFaultRecord c p).faultCause = c := rfl
@[simp] theorem State.setFaultRecord_faultIp (c : FaultCause) (p : Nat) : (s.setFaultRecord c p).faultIp = p := rfl
@[simp] theorem State.setFaultRecord_input (c : FaultCause) (p : Nat) : (s.setFaultRecord c p).input = s.input := rfl
@[simp] theorem State.setFaultRecord_output (c : FaultCause) (p : Nat) : (s.setFaultRecord c p).output = s.output := rfl
@[simp] theorem State.setFaultRecord_tapeSize (c : FaultCause) (p : Nat) : (s.setFaultRecord c p).tapeSize = s.tapeSize := rfl
@[simp] theorem State.setFaultRecord_prog (c : FaultCause) (p : Nat) : (s.setFaultRecord c p).prog = s.prog := rfl
@[simp] theorem State.setFaultRecord_tapePolicy (c : FaultCause) (p : Nat) : (s.setFaultRecord c p).tapePolicy = s.tapePolicy := rfl
@[simp] theorem State.setFaultRecord_eofPolicy (c : FaultCause) (p : Nat) : (s.setFaultRecord c p).eofPolicy = s.eofPolicy := rfl

@[simp] theorem State.setInput_ip (bs : List Byte) : (s.setInput bs).ip = s.ip := rfl
@[simp] theorem State.setInput_dp (bs : List Byte) : (s.setInput bs).dp = s.dp := rfl
@[simp] theorem State.setInput_tape (bs : List Byte) : (s.setInput bs).tape = s.tape := rfl
@[simp] theorem State.setInput_run (bs : List Byte) : (s.setInput bs).run = s.run := rfl
@[simp] theorem State.setInput_faultCause (bs : List Byte) : (s.setInput bs).faultCause = s.faultCause := rfl
@[simp] theorem State.setInput_faultIp (bs : List Byte) : (s.setInput bs).faultIp = s.faultIp := rfl
@[simp] theorem State.setInput_input (bs : List Byte) : (s.setInput bs).input = bs := rfl
@[simp] theorem State.setInput_output (bs : List Byte) : (s.setInput bs).output = s.output := rfl
@[simp] theorem State.setInput_tapeSize (bs : List Byte) : (s.setInput bs).tapeSize = s.tapeSize := rfl
@[simp] theorem State.setInput_prog (bs : List Byte) : (s.setInput bs).prog = s.prog := rfl
@[simp] theorem State.setInput_tapePolicy (bs : List Byte) : (s.setInput bs).tapePolicy = s.tapePolicy := rfl
@[simp] theorem State.setInput_eofPolicy (bs : List Byte) : (s.setInput bs).eofPolicy = s.eofPolicy := rfl

@[simp] theorem State.setOutput_ip (bs : List Byte) : (s.setOutput bs).ip = s.ip := rfl
@[simp] theorem State.setOutput_dp (bs : List Byte) : (s.setOutput bs).dp = s.dp := rfl
@[simp] theorem State.setOutput_tape (bs : List Byte) : (s.setOutput bs).tape = s.tape := rfl
@[simp] theorem State.setOutput_run (bs : List Byte) : (s.setOutput bs).run = s.run := rfl
@[simp] theorem State.setOutput_faultCause (bs : List Byte) : (s.setOutput bs).faultCause = s.faultCause := rfl
@[simp] theorem State.setOutput_faultIp (bs : List Byte) : (s.setOutput bs).faultIp = s.faultIp := rfl
@[simp] theorem State.setOutput_input (bs : List Byte) : (s.setOutput bs).input = s.input := rfl
@[simp] theorem State.setOutput_output (bs : List Byte) : (s.setOutput bs).output = bs := rfl
@[simp] theorem State.setOutput_tapeSize (bs : List Byte) : (s.setOutput bs).tapeSize = s.tapeSize := rfl
@[simp] theorem State.setOutput_prog (bs : List Byte) : (s.setOutput bs).prog = s.prog := rfl
@[simp] theorem State.setOutput_tapePolicy (bs : List Byte) : (s.setOutput bs).tapePolicy = s.tapePolicy := rfl
@[simp] theorem State.setOutput_eofPolicy (bs : List Byte) : (s.setOutput bs).eofPolicy = s.eofPolicy := rfl

end Sys2Proof.Machine
end

