-- ==== Sys2Proof/Laws/Ops.lean ====
section
/-! SUPPORT. One lemma per shared operation that says everything it can do; callers cite it and do not unfold. -/

namespace Sys2Proof.Machine

variable {s t : State}

@[simp] theorem advance_eq (s : State) : advance s = s.setIp (s.ip + 1) := rfl

theorem fetch_byte_iff {prog : List Byte} {i : Nat} {b : Byte} : fetch prog i = .byte b ↔ prog[i]? = some b := by
  unfold fetch
  cases h : prog[i]? with
  | none => simp; split <;> simp
  | some c => simp

theorem fetch_endMark_iff {prog : List Byte} {i : Nat} : fetch prog i = .endMark ↔ i = prog.length := by
  unfold fetch
  cases h : prog[i]? with
  | none => simp
  | some c =>
    obtain ⟨hi, -⟩ := List.getElem?_eq_some_iff.1 h
    simp; omega

theorem fetch_outside_iff {prog : List Byte} {i : Nat} : fetch prog i = .outside ↔ prog.length < i := by
  unfold fetch
  cases h : prog[i]? with
  | none =>
    rw [List.getElem?_eq_none_iff] at h
    simp; omega
  | some c =>
    obtain ⟨hi, -⟩ := List.getElem?_eq_some_iff.1 h
    simp; omega

/-- The byte placed at `p` is the one a fetch at `p` reads. -/
theorem fetch_placeByte (prog : List Byte) (p : Nat) (b : Byte) : fetch (placeByte prog p b) p = .byte b := by
  rw [fetch_byte_iff, placeByte, List.append_assoc]
  rcases Nat.lt_or_ge p prog.length with h | h
  · have h1 : (prog.take p).length = p := by simp; omega
    have h2 : p - prog.length = 0 := by omega
    rw [List.getElem?_append_right (by omega), h1, h2]
    simp
  · have h1 : (prog.take p).length = prog.length := by simp; omega
    rw [List.getElem?_append_right (by omega), h1, List.getElem?_append_right (by simp)]
    simp

theorem memRead_of_lt {a : Nat} (h : a < s.tapeSize) (k : Byte → Result) : memRead a s k = k (s.tape.read a) := by
  simp [memRead, h]

theorem memWrite_of_lt {a : Nat} (h : a < s.tapeSize) (v : Byte) (k : State → Result) :
    memWrite a v s k = k (s.setTape (s.tape.write a v)) := by
  simp [memWrite, h]

/-- A read of the current cell that goes on to a next state: `DP` was on the tape and `k` had the cell's value. -/
theorem readCell_next_iff {k : Byte → Result} :
    readCell s k = .next t ↔ s.dp < s.tapeSize ∧ k (s.tape.read s.dp) = .next t := by
  by_cases h : s.dp < s.tapeSize <;> simp [readCell, memRead, currentAddress, h]

/-- A write of the current cell that goes on to a next state: `DP` was on the tape and `k` had the state after it. -/
theorem writeCell_next_iff {v : Byte} {k : State → Result} :
    writeCell v s k = .next t ↔ s.dp < s.tapeSize ∧ k (s.setTape (s.tape.write s.dp v)) = .next t := by
  by_cases h : s.dp < s.tapeSize <;> simp [writeCell, memWrite, currentAddress, h]

theorem readCell_of_lt (h : s.dp < s.tapeSize) (k : Byte → Result) : readCell s k = k (s.tape.read s.dp) :=
  memRead_of_lt h k

theorem writeCell_of_lt (h : s.dp < s.tapeSize) (v : Byte) (k : State → Result) :
    writeCell v s k = k (s.setTape (s.tape.write s.dp v)) :=
  memWrite_of_lt h v k

/-- What a pointer move can answer: always a next state, one of three. -/
theorem movePointer_cases (onTape : Bool) (target wrapped : Nat) (s : State) :
    (onTape = true ∧ movePointer onTape target wrapped s = .next (advance (s.setDp target))) ∨
    (onTape = false ∧ s.tapePolicy = .wrap ∧
      movePointer onTape target wrapped s = .next (advance (s.setDp wrapped))) ∨
    (onTape = false ∧ s.tapePolicy = .fault ∧
      movePointer onTape target wrapped s = .next (raiseFault .tapeBoundsError s.ip s)) := by
  cases onTape with
  | true => exact .inl ⟨rfl, rfl⟩
  | false =>
    cases h : s.tapePolicy with
    | wrap => exact .inr (.inl ⟨rfl, rfl, by simp [movePointer, h]⟩)
    | fault => exact .inr (.inr ⟨rfl, rfl, by simp [movePointer, h]⟩)

/-- What a taken jump can answer: always a next state, one of two. -/
theorem takeJump_cases (s : State) :
    (∃ q, resolve s.prog s.ip = some q ∧ takeJump s = .next (s.setIp (q + 1))) ∨
    (resolve s.prog s.ip = none ∧ takeJump s = .next (raiseFault .malformedProgram s.ip s)) := by
  cases h : resolve s.prog s.ip with
  | none => exact .inr ⟨rfl, by simp [takeJump, h]⟩
  | some q => exact .inl ⟨q, rfl, by simp [takeJump, h]⟩

theorem inRead_nil (h : s.input = []) : inRead s = (.eof, s) := by simp [inRead, h]

theorem inRead_cons {b : Byte} {rest : List Byte} (h : s.input = b :: rest) :
    inRead s = (.byte b, s.setInput rest) := by simp [inRead, h]

/-- What an input request's answer becomes when `DP` is on the tape. -/
theorem storeAnswer_of_lt (h : s.dp < s.tapeSize) (r : InAnswer) :
    storeAnswer r s =
      match r, s.eofPolicy with
      | .byte b, _ => .next (advance (s.setTape (s.tape.write s.dp b)))
      | .eof, .zero => .next (advance (s.setTape (s.tape.write s.dp 0#8)))
      | .eof, .unchanged => .next (advance s) := by
  cases r with
  | byte b => simp [storeAnswer, writeCell_of_lt h]
  | eof => cases hp : s.eofPolicy <;> simp [storeAnswer, writeCell_of_lt h, hp]

/-- A fault writes the record and `RUN`, and nothing else (R222). -/
theorem raiseFault_eq (f : CoreFault) (p : Nat) (s : State) :
    raiseFault f p s = { s with run := .faulted, faultCause := f.cause, faultIp := p } := rfl

/-- The halt delivers the newline and ends the run, and nothing else (R102). -/
theorem halt_eq (s : State) : halt s = { s with run := .halted, output := s.output ++ [newline] } := rfl

theorem outWrite_eq (b : Byte) (s : State) : outWrite b s = s.setOutput (s.output ++ [b]) := rfl

theorem incByte_toNat (v : Byte) : (incByte v).toNat = (v.toNat + 1) % 256 := by
  simp [incByte]

theorem decByte_toNat (v : Byte) : (decByte v).toNat = (v.toNat + 255) % 256 := by
  simp [decByte]

end Sys2Proof.Machine
end

