-- ==== Sys2Proof/Laws/PerInstr.lean ====
section
/-! SUPPORT. Statements made of every instruction as syntax, one lemma per constructor (LAWS.json). -/

namespace Sys2Proof.Laws

/-- `EncodesToOneOwnByte`: an instruction's encoding is one byte (R80, R86), and that byte is an opcode value exactly when
the instruction is not a well-formed comment (R83). -/
def EncodesToOneOwnByte.Statement (i : Instr) : Prop :=
  (encode i).length = 1 ∧ (i.wellFormed = true → (isOpcode (encodeByte i) = false ↔ i = .nop (encodeByte i)))

theorem EncodesToOneOwnByte.inc : EncodesToOneOwnByte.Statement .inc := by
  unfold EncodesToOneOwnByte.Statement; decide

theorem EncodesToOneOwnByte.dec : EncodesToOneOwnByte.Statement .dec := by
  unfold EncodesToOneOwnByte.Statement; decide

theorem EncodesToOneOwnByte.right : EncodesToOneOwnByte.Statement .right := by
  unfold EncodesToOneOwnByte.Statement; decide

theorem EncodesToOneOwnByte.left : EncodesToOneOwnByte.Statement .left := by
  unfold EncodesToOneOwnByte.Statement; decide

theorem EncodesToOneOwnByte.jz : EncodesToOneOwnByte.Statement .jz := by
  unfold EncodesToOneOwnByte.Statement; decide

theorem EncodesToOneOwnByte.jnz : EncodesToOneOwnByte.Statement .jnz := by
  unfold EncodesToOneOwnByte.Statement; decide

theorem EncodesToOneOwnByte.out : EncodesToOneOwnByte.Statement .out := by
  unfold EncodesToOneOwnByte.Statement; decide

theorem EncodesToOneOwnByte.inp : EncodesToOneOwnByte.Statement .inp := by
  unfold EncodesToOneOwnByte.Statement; decide

theorem EncodesToOneOwnByte.nop (b : Byte) : EncodesToOneOwnByte.Statement (.nop b) := by
  refine ⟨rfl, fun h => ?_⟩
  simpa [Instr.wellFormed, encodeByte] using h

end Sys2Proof.Laws
end

