-- ==== Sys2Proof/Laws/Step.lean ====
section
/-! SUPPORT. What each meaning, a step and an event of the host can answer, said once, so that no later proof unfolds
them. -/

namespace Sys2Proof.Machine

variable {s t : State}

theorem exec_inc_iff : exec .inc s = .next t ↔
    s.dp < s.tapeSize ∧ t = (s.setTape (s.tape.write s.dp (incByte (s.tape.read s.dp)))).setIp (s.ip + 1) := by
  simp only [exec, execInc, readCell_next_iff, writeCell_next_iff, advance_eq, Host.Outcome.next.injEq]
  exact ⟨fun h => ⟨h.1, h.2.2.symm⟩, fun h => ⟨h.1, h.1, h.2.symm⟩⟩

theorem exec_dec_iff : exec .dec s = .next t ↔
    s.dp < s.tapeSize ∧ t = (s.setTape (s.tape.write s.dp (decByte (s.tape.read s.dp)))).setIp (s.ip + 1) := by
  simp only [exec, execDec, readCell_next_iff, writeCell_next_iff, advance_eq, Host.Outcome.next.injEq]
  exact ⟨fun h => ⟨h.1, h.2.2.symm⟩, fun h => ⟨h.1, h.1, h.2.symm⟩⟩

theorem exec_right_iff : exec .right s = .next t ↔
    (s.dp + 1 < s.tapeSize ∧ t = (s.setDp (s.dp + 1)).setIp (s.ip + 1)) ∨
    (s.tapeSize ≤ s.dp + 1 ∧ s.tapePolicy = .wrap ∧ t = (s.setDp 0).setIp (s.ip + 1)) ∨
    (s.tapeSize ≤ s.dp + 1 ∧ s.tapePolicy = .fault ∧ t = raiseFault .tapeBoundsError s.ip s) := by
  by_cases h : s.dp + 1 < s.tapeSize
  · simp [exec, execRight, movePointer, h, eq_comm]
  · cases hp : s.tapePolicy <;> simp [exec, execRight, movePointer, h, hp, eq_comm] <;> omega

theorem exec_left_iff : exec .left s = .next t ↔
    (1 ≤ s.dp ∧ t = (s.setDp (s.dp - 1)).setIp (s.ip + 1)) ∨
    (s.dp = 0 ∧ s.tapePolicy = .wrap ∧ t = (s.setDp (s.tapeSize - 1)).setIp (s.ip + 1)) ∨
    (s.dp = 0 ∧ s.tapePolicy = .fault ∧ t = raiseFault .tapeBoundsError s.ip s) := by
  by_cases h : 1 ≤ s.dp
  · simp [exec, execLeft, movePointer, h, eq_comm]; omega
  · have h0 : s.dp = 0 := by omega
    cases hp : s.tapePolicy <;> simp [exec, execLeft, movePointer, h0, hp, eq_comm]

theorem takeJump_iff : takeJump s = .next t ↔
    (∃ q, resolve s.prog s.ip = some q ∧ t = s.setIp (q + 1)) ∨
    (resolve s.prog s.ip = none ∧ t = raiseFault .malformedProgram s.ip s) := by
  cases h : resolve s.prog s.ip <;> simp [takeJump, h, eq_comm]

theorem exec_jz_iff : exec .jz s = .next t ↔
    s.dp < s.tapeSize ∧
      ((s.tape.read s.dp ≠ 0#8 ∧ t = s.setIp (s.ip + 1)) ∨
       (s.tape.read s.dp = 0#8 ∧
        ((∃ q, resolve s.prog s.ip = some q ∧ t = s.setIp (q + 1)) ∨
         (resolve s.prog s.ip = none ∧ t = raiseFault .malformedProgram s.ip s)))) := by
  rw [← takeJump_iff, exec, execJz, readCell_next_iff]
  by_cases h : s.tape.read s.dp = 0#8 <;> simp [isZero, h, eq_comm (a := t)]

theorem exec_jnz_iff : exec .jnz s = .next t ↔
    s.dp < s.tapeSize ∧
      ((s.tape.read s.dp = 0#8 ∧ t = s.setIp (s.ip + 1)) ∨
       (s.tape.read s.dp ≠ 0#8 ∧
        ((∃ q, resolve s.prog s.ip = some q ∧ t = s.setIp (q + 1)) ∨
         (resolve s.prog s.ip = none ∧ t = raiseFault .malformedProgram s.ip s)))) := by
  rw [← takeJump_iff, exec, execJnz, readCell_next_iff]
  by_cases h : s.tape.read s.dp = 0#8 <;> simp [isZero, h, eq_comm (a := t)]

theorem exec_out_iff : exec .out s = .next t ↔
    s.dp < s.tapeSize ∧ t = (s.setOutput (s.output ++ [s.tape.read s.dp])).setIp (s.ip + 1) := by
  simp [exec, execOut, readCell_next_iff, outWrite_eq, eq_comm (a := t)]

theorem exec_inp_iff : exec .inp s = .next t ↔
    (∃ b rest, s.input = b :: rest ∧ s.dp < s.tapeSize ∧
      t = ((s.setInput rest).setTape (s.tape.write s.dp b)).setIp (s.ip + 1)) ∨
    (s.input = [] ∧ s.eofPolicy = .zero ∧ s.dp < s.tapeSize ∧
      t = (s.setTape (s.tape.write s.dp 0#8)).setIp (s.ip + 1)) ∨
    (s.input = [] ∧ s.eofPolicy = .unchanged ∧ t = s.setIp (s.ip + 1)) := by
  cases hi : s.input with
  | nil =>
    rw [exec, execIn, inRead_nil hi]
    cases hp : s.eofPolicy <;> simp [storeAnswer, hp, writeCell_next_iff, eq_comm (a := t)]
  | cons b rest =>
    rw [exec, execIn, inRead_cons hi]
    simp [storeAnswer, writeCell_next_iff, eq_comm (a := t)]

theorem exec_nop_iff {b : Byte} : exec (.nop b) s = .next t ↔ t = s.setIp (s.ip + 1) := by
  simp [exec, execNop, eq_comm (a := t)]

/-- Every next state a step can answer. -/
theorem step_cases (h : step s = .next t) :
    (s.run ≠ .running ∧ t = s) ∨
    (s.run = .running ∧ 0 < s.tapeSize ∧ s.ip = s.progLen ∧ t = halt s) ∨
    (s.run = .running ∧ 0 < s.tapeSize ∧ ∃ b, s.prog[s.ip]? = some b ∧ exec (decodeByte b) s = .next t) := by
  cases hr : s.run with
  | halted => left; simpa [step, hr, stepStopped, eq_comm] using h
  | faulted => left; simpa [step, hr, stepStopped, eq_comm] using h
  | running =>
    right
    simp only [step, hr, stepRunning] at h
    split at h
    · cases h
    · next hn =>
      split at h
      · next b hb => exact .inr ⟨rfl, by omega, b, fetch_byte_iff.1 hb, h⟩
      · next he => exact .inl ⟨rfl, by omega, fetch_endMark_iff.1 he, by simpa [eq_comm] using h⟩
      · cases h

theorem step_of_byte {b : Byte} (hr : s.run = .running) (hn : 0 < s.tapeSize) (hb : s.prog[s.ip]? = some b) :
    step s = exec (decodeByte b) s := by
  simp [step, hr, stepRunning, fetch_byte_iff.2 hb, Nat.ne_of_gt hn]

theorem step_of_end (hr : s.run = .running) (hn : 0 < s.tapeSize) (he : s.ip = s.progLen) :
    step s = .next (halt s) := by
  simp [step, hr, stepRunning, fetch_endMark_iff.2 he, Nat.ne_of_gt hn]

theorem step_of_stopped (hr : s.run ≠ .running) : step s = .next s := by
  cases h : s.run <;> simp_all [step, stepStopped]

/-- What the decoder reads from each opcode value (R82), and the byte behind each opcode it reads. -/
theorem decodeByte_eq_iff (b : Byte) :
    (decodeByte b = .inc ↔ b = 0x2B#8) ∧ (decodeByte b = .dec ↔ b = 0x2D#8) ∧ (decodeByte b = .right ↔ b = 0x3E#8) ∧
    (decodeByte b = .left ↔ b = 0x3C#8) ∧ (decodeByte b = .jz ↔ b = 0x5B#8) ∧ (decodeByte b = .jnz ↔ b = 0x5D#8) ∧
    (decodeByte b = .out ↔ b = 0x2E#8) ∧ (decodeByte b = .inp ↔ b = 0x2C#8) := by
  revert b; decide

/-- Every next state an event of the host can answer. -/
theorem hostEvent_cases {e : HostEvent} (h : hostEvent e s = .next t) :
    (step s = .next t ∧ ∀ g, e ≠ .reset g) ∨ (e = .stall ∧ (pendingTransfer s).isSome ∧ t = s) ∨
    (∃ g, e = .reset g ∧ 0 < g.tapeSize ∧ t = State.ofSetup g) := by
  cases e with
  | serve => exact .inl ⟨h, by simp⟩
  | stall =>
    by_cases hp : (pendingTransfer s).isSome
    · refine .inr (.inl ⟨rfl, hp, ?_⟩)
      simpa [hostEvent, hp, eq_comm] using h
    · refine .inl ⟨?_, by simp⟩
      simpa [hostEvent, hp] using h
  | reset g =>
    refine .inr (.inr ⟨g, rfl, ?_⟩)
    by_cases hz : g.tapeSize = 0
    · simp [hostEvent, assertReset, hz] at h
    · refine ⟨by omega, ?_⟩
      simpa [hostEvent, assertReset, hz, eq_comm] using h

@[simp] theorem hostRun_nil (s : State) : hostRun [] s = .next s := rfl

/-- A run of events that ends in a next state passes through one after its first event. -/
theorem hostRun_cons_iff {e : HostEvent} {es : List HostEvent} :
    hostRun (e :: es) s = .next t ↔ ∃ u, hostEvent e s = .next u ∧ hostRun es u = .next t := by
  cases h : hostEvent e s <;> simp [hostRun, h]

/-- What holds of a state and is kept by every step holds after any events of the host but reset. -/
theorem hostRun_keeps {P : State → Prop} (keeps : ∀ u v, P u → step u = .next v → P v) (es : List HostEvent) (s t : State)
    (hes : ∀ e ∈ es, ∀ g, e ≠ .reset g) (hs : P s) (h : hostRun es s = .next t) : P t := by
  induction es generalizing s with
  | nil => cases h; exact hs
  | cons e es ih =>
    obtain ⟨u, hu, ht⟩ := hostRun_cons_iff.1 h
    refine ih u (fun e' he' => hes e' (List.mem_cons_of_mem _ he')) ?_ ht
    obtain ⟨h1, -⟩ | ⟨-, -, rfl⟩ | ⟨g, hg, -⟩ := hostEvent_cases hu
    · exact keeps _ _ hs h1
    · exact hs
    · exact absurd hg (hes e List.mem_cons_self g)

end Sys2Proof.Machine
end

