-- ==== Sys2Proof/Tests/Slice0.lean ====
section
/-! SUPPORT. The model's own tests: words written out from R82's bit patterns, single steps with results taken from
spec/95_test_vectors.md, and for every statement with hypotheses a witness that meets them. -/

namespace Sys2Proof.Tests

open Sys2Proof.Machine

/-! ## Helpers -/

/-- A launch with `N = 3` cells, `fault` and `unchanged`. -/
def launch (prog : List Byte) : State := State.ofSetup ⟨3, prog, .fault, .unchanged, []⟩

/-- The same with `wrap` and `zero`. -/
def launchWrap (prog : List Byte) : State := State.ofSetup ⟨3, prog, .wrap, .zero, []⟩

/-- `s` with the byte `v` in the current cell. -/
def withCell (s : State) (v : Byte) : State := { s with tape := s.tape.write s.dp v }

/-- The next state, where there is one. -/
def after (r : Result) : Option State :=
  match r with
  | .next t => some t
  | .fault _ => none
  | .refused _ => none

/-- The byte in the current cell. -/
def cell (s : State) : Byte := s.tape.read s.dp

/-! ## Syntax and decoding -/

/-- R83: a comment whose byte is an opcode is ill-formed; the check refuses it for each of the eight. -/
theorem test_nop_of_an_opcode_is_ill_formed :
    ([0x2B#8, 0x2C#8, 0x2D#8, 0x2E#8, 0x3C#8, 0x3E#8, 0x5B#8, 0x5D#8].map fun b => (Instr.nop b).wellFormed) =
      [false, false, false, false, false, false, false, false] := by decide

theorem test_nop_of_a_comment_is_well_formed : (Instr.nop 0x61#8).wellFormed = true := by decide

/-! The eight opcodes, bit 7 first, from R82's table; then the bytes of V5 and R83's `0x00`. -/

theorem test_decode_inc : decode [0b00101011#8] = .ok (.inc, []) := by decide
theorem test_decode_inp : decode [0b00101100#8] = .ok (.inp, []) := by decide
theorem test_decode_dec : decode [0b00101101#8] = .ok (.dec, []) := by decide
theorem test_decode_out : decode [0b00101110#8] = .ok (.out, []) := by decide
theorem test_decode_left : decode [0b00111100#8] = .ok (.left, []) := by decide
theorem test_decode_right : decode [0b00111110#8] = .ok (.right, []) := by decide
theorem test_decode_jz : decode [0b01011011#8] = .ok (.jz, []) := by decide
theorem test_decode_jnz : decode [0b01011101#8] = .ok (.jnz, []) := by decide
theorem test_decode_nul_is_a_comment : decode [0x00#8, 0x2B#8] = .ok (.nop 0x00#8, [0x2B#8]) := by decide
theorem test_decode_neighbours_are_comments :
    decodeProgram [0xFF#8, 0x5C#8, 0x5E#8, 0x2A#8, 0x2F#8, 0x3D#8] =
      [.nop 0xFF#8, .nop 0x5C#8, .nop 0x5E#8, .nop 0x2A#8, .nop 0x2F#8, .nop 0x3D#8] := by decide
theorem test_decode_rejects_no_byte : decode [] = .error .noByte := by decide

/-- P4's program, from its text `,[.,]` and its listed encoding. -/
theorem test_encode_program :
    encodeProgram [.inp, .jz, .out, .inp, .jnz] = [0x2C#8, 0x5B#8, 0x2E#8, 0x2C#8, 0x5D#8] := by decide

theorem test_table_words :
    decodeTableWord 8 0x2B = some .inc ∧ decodeTableWord 8 0x5D = some .jnz ∧
      decodeTableWord 8 0x00 = some (.nop 0x00#8) := by decide

/-- R31's codes, both ways. -/
theorem test_policy_codes :
    TapePolicy.ofCode 0 = .fault ∧ TapePolicy.ofCode 1 = .wrap ∧ TapePolicy.fault.code = 0 ∧ TapePolicy.wrap.code = 1 ∧
      EofPolicy.ofCode 0 = .unchanged ∧ EofPolicy.ofCode 1 = .zero ∧ EofPolicy.unchanged.code = 0 ∧
      EofPolicy.zero.code = 1 := by decide

/-! ## Steps -/

/-- R6, R32, R262: the defaults right after reset. -/
theorem test_reset_defaults :
    State.reset.tapeSize = 30000 ∧ State.reset.tapePolicy = .fault ∧ State.reset.eofPolicy = .unchanged ∧
      State.reset.progLen = 0 := by decide

/-- V1: the empty program halts in its first step, with the newline alone. -/
theorem test_empty_program_halts :
    (after (step State.reset)).map (fun t => (t.run, t.ip, t.output)) = some (.halted, 0, [0x0A#8]) := by decide

/-- V8. -/
theorem test_inc_wraps :
    (after (step (withCell (launch [0x2B#8]) 0xFF#8))).map (fun t => (cell t, t.ip)) = some (0x00#8, 1) := by decide

/-- V7. -/
theorem test_inc_adds_one : (after (step (withCell (launch [0x2B#8]) 0xFE#8))).map cell = some 0xFF#8 := by decide

/-- V10. -/
theorem test_dec_wraps :
    (after (step (launch [0x2D#8]))).map (fun t => (cell t, t.ip)) = some (0xFF#8, 1) := by decide

/-- V11. -/
theorem test_dec_has_no_sign : (after (step (withCell (launch [0x2D#8]) 0x80#8))).map cell = some 0x7F#8 := by decide

/-- V15. -/
theorem test_right_faults_at_the_last_cell :
    (after (step { launch [0x3E#8] with dp := 2 })).map (fun t => (t.run, t.faultCause, t.faultIp, t.dp, t.ip)) =
      some (.faulted, .tapeBoundsError, 0, 2, 0) := by decide

/-- V16. -/
theorem test_right_wraps :
    (after (step { launchWrap [0x3E#8] with dp := 2 })).map (fun t => (t.dp, t.ip)) = some (0, 1) := by decide

/-- V17. -/
theorem test_left_moves :
    (after (step { launch [0x3C#8] with dp := 1 })).map (fun t => (t.dp, t.ip)) = some (0, 1) := by decide

/-- V20. -/
theorem test_left_wraps_on_the_default_tape :
    (after (step (State.ofSetup ⟨30000, [0x3C#8], .wrap, .unchanged, []⟩))).map (fun t => t.dp) = some 29999 := by
  decide

/-- S4, V25 to V32. -/
theorem test_resolver_vectors :
    (([0, 5, 1, 2, 3, 4].map (resolve [0x5B#8, 0x5B#8, 0x5D#8, 0x5B#8, 0x5D#8, 0x5D#8])) =
      [some 5, some 0, some 2, some 1, some 4, some 3]) ∧
    resolve [0x5B#8, 0x5D#8] 0 = some 1 ∧ resolve [0x5B#8, 0x5D#8] 1 = some 0 ∧
    resolve [0x5B#8, 0x61#8, 0x5B#8, 0x62#8, 0x5D#8, 0x63#8, 0x5D#8] 0 = some 6 ∧
    resolve [0x5B#8, 0x61#8, 0x5B#8, 0x62#8, 0x5D#8, 0x63#8, 0x5D#8] 4 = some 2 ∧
    resolve [0x5B#8, 0x5B#8, 0x5D#8] 0 = none ∧ resolve [0x5B#8, 0x5D#8, 0x5D#8] 2 = none ∧
    resolve [0x2B#8, 0x5D#8] 1 = none ∧ resolve [0x2B#8] 0 = none := by decide

/-- V33, its first step. -/
theorem test_jz_skips_the_loop :
    (after (step (launch [0x5B#8, 0x2B#8, 0x5D#8]))).map (fun t => t.ip) = some 3 := by decide

/-- S8: `[` alone. -/
theorem test_jz_unmatched_faults :
    (after (step (launch [0x5B#8]))).map (fun t => (t.run, t.faultCause, t.faultIp, t.ip, t.output)) =
      some (.faulted, .malformedProgram, 0, 0, []) := by decide

/-- R146's example: `+[-]` at `IP = 3` with the cell 5. -/
theorem test_jnz_repeats_the_loop :
    (after (step (withCell { launch [0x2B#8, 0x5B#8, 0x2D#8, 0x5D#8] with ip := 3 } 0x05#8))).map (fun t => t.ip) =
      some 2 := by decide

/-- V37, its first step: the unmatched `]` finds zero. -/
theorem test_jnz_falls_through : (after (step (launch [0x5D#8]))).map (fun t => (t.run, t.ip)) = some (.running, 1) := by
  decide

/-- V44. -/
theorem test_out_delivers :
    (after (step (withCell (launch [0x2E#8]) 0x40#8))).map (fun t => (t.output, cell t)) = some ([0x40#8], 0x40#8) := by
  decide

/-- V46. -/
theorem test_in_stores :
    (after (step { launch [0x2C#8] with input := [0x41#8] })).map (fun t => (cell t, t.input)) = some (0x41#8, []) := by
  decide

/-- V47 and V48. -/
theorem test_in_at_end_of_input :
    (after (step (withCell (launch [0x2C#8]) 0x07#8))).map cell = some 0x07#8 ∧
      (after (step (withCell (launchWrap [0x2C#8]) 0x07#8))).map cell = some 0x00#8 := by decide

/-- V2, its first step. -/
theorem test_nop_advances :
    (after (step (launch [0x61#8, 0x2B#8]))).map (fun t => (t.ip, t.tape)) = some (1, []) := by decide

/-- R54: the canonical form drops a cell that is written back to 0. -/
theorem test_tape_stays_canonical :
    (((Memory.write [] 2 0x05#8).write 0 0x01#8).write 1 0x09#8).write 2 0x00#8 = [(0, 0x01#8), (1, 0x09#8)] := by
  decide

/-! ## Witnesses: every statement's hypotheses are met together -/

/-- A launch meets the invariants. -/
theorem inv_launch : MachineInv (launch [0x2B#8]) := by constructor <;> decide

theorem witness_DecodeReadsBackEncode : (Instr.nop 0x5C#8).wellFormed = true ∧ Instr.jz.wellFormed = true := by decide

theorem witness_ProgramTextAndInstructionsCorrespond :
    ∀ i ∈ [Instr.inc, .nop 0x00#8], i.wellFormed = true := by decide

theorem witness_ResetSetsEveryPieceOfState : 0 < (HostSetup.mk 1 [] .wrap .zero [0x00#8]).tapeSize := by decide

theorem witness_ZeroTapeSizeNeverLaunches :
    (HostSetup.mk 0 [] .fault .zero []).tapeSize = 0 ∧ { launch [] with tapeSize := 0 }.tapeSize = 0 ∧
      { launch [] with tapeSize := 0 }.run = .running := by decide

theorem witness_LaunchStatesMeetTheInvariants : 0 < (HostSetup.mk 1 [0x5D#8] .fault .zero []).tapeSize := by decide

theorem witness_StepRunsTheDecodedInstruction :
    ((launch [0x2B#8]).run = .running ∧ 0 < (launch [0x2B#8]).tapeSize ∧
      decode ((launch [0x2B#8]).prog.drop (launch [0x2B#8]).ip) = .ok (.inc, [])) ∧
    (launch []).ip = (launch []).progLen ∧
    (0x00#8 : Byte) ∉ [0x2B#8, 0x2D#8, 0x3E#8, 0x3C#8, 0x5B#8, 0x5D#8, 0x2E#8, 0x2C#8] := by decide

theorem witness_StepAtTheSentinelHalts :
    ((launch []).run = .running ∧ 0 < (launch []).tapeSize ∧ (launch []).ip = (launch []).progLen) ∧
    ∃ s t : State, step s = .next t ∧ t.run = .faulted :=
  ⟨by decide, launch [0x3C#8], _, rfl, rfl⟩

theorem witness_PlacedWordRunsNext :
    0 < State.reset.tapeSize ∧ decodeTableWord 8 0x5B = some .jz ∧
      1 ≠ (launch [0x2B#8, 0x2D#8]).ip ∧ 1 < (launch [0x2B#8, 0x2D#8]).progLen := by decide

theorem witness_OnlyResetLeavesAStoppedCore :
    (halt (launch [])).run ≠ .running ∧ ∀ e ∈ [HostEvent.serve, .stall], ∀ h, e ≠ .reset h :=
  ⟨by decide, by simp⟩

/-- `+`, `-`, `.` and `,` at the last cell of the tape. -/
theorem witness_IncrementWrapsInTheCurrentCell :
    { launch [0x2B#8] with dp := 2 }.dp < { launch [0x2B#8] with dp := 2 }.tapeSize := by decide

theorem witness_DecrementWrapsInTheCurrentCell :
    { launch [0x2D#8] with dp := 2 }.dp < { launch [0x2D#8] with dp := 2 }.tapeSize := by decide

/-- Its clauses: before the last cell, at the last cell under `wrap`, at the only cell under `fault`. -/
theorem witness_RightMovesOrWrapsOrFaults :
    ((launch []).dp < (launch []).tapeSize ∧ { launch [] with dp := 1 }.dp + 1 ≤ (launch []).tapeSize - 1) ∧
    ({ launchWrap [] with dp := 2 }.dp = (launchWrap []).tapeSize - 1 ∧ (launchWrap []).tapePolicy = .wrap) ∧
    ((State.ofSetup ⟨1, [], .fault, .zero, []⟩).dp = (State.ofSetup ⟨1, [], .fault, .zero, []⟩).tapeSize - 1 ∧
      (State.ofSetup ⟨1, [], .fault, .zero, []⟩).tapePolicy = .fault) := by decide

/-- Its clauses: after the first cell, at the first under `wrap`, at the first under `fault`. -/
theorem witness_LeftMovesOrWrapsOrFaults :
    ({ launch [] with dp := 1 }.dp < (launch []).tapeSize ∧ 1 ≤ { launch [] with dp := 1 }.dp) ∧
    ((launchWrap []).dp = 0 ∧ (launchWrap []).tapePolicy = .wrap) ∧
    ((launch []).dp = 0 ∧ (launch []).tapePolicy = .fault) := by decide

/-- Its clauses: a nonzero cell; a zero cell with the match right after; a zero cell with no match. -/
theorem witness_JumpIfZeroSkipsTheLoop :
    ((launch [0x5B#8]).dp < (launch [0x5B#8]).tapeSize ∧
      (launch [0x5B#8]).prog[(launch [0x5B#8]).ip]? = some 0x5B#8) ∧
    cell (withCell (launch [0x5B#8]) 0xFF#8) ≠ 0#8 ∧
    (cell (launch [0x5B#8, 0x5D#8]) = 0#8 ∧ ForwardMatch [0x5B#8, 0x5D#8] 0 1) ∧
    (cell (launch [0x5B#8]) = 0#8 ∧ ∀ q, ¬ForwardMatch [0x5B#8] 0 q) :=
  ⟨by decide, by decide, by decide, by decide, fun q h => by
    obtain ⟨h1, h2, -⟩ := h
    simp at h2
    omega⟩

/-- Its clauses: a zero cell; a nonzero cell with the match right before; a nonzero cell with no match. -/
theorem witness_JumpIfNonzeroRepeatsTheLoop :
    ((launch [0x5D#8]).dp < (launch [0x5D#8]).tapeSize ∧
      (launch [0x5D#8]).prog[(launch [0x5D#8]).ip]? = some 0x5D#8) ∧
    cell (launch [0x5D#8]) = 0#8 ∧
    (cell (withCell (launch [0x5B#8, 0x5D#8]) 0x01#8) ≠ 0#8 ∧ BackwardMatch [0x5B#8, 0x5D#8] 1 0) ∧
    (cell (withCell (launch [0x5D#8]) 0x01#8) ≠ 0#8 ∧ ∀ q, ¬BackwardMatch [0x5D#8] 0 q) :=
  ⟨by decide, by decide, by decide, by decide, fun q h => by
    obtain ⟨h1, -⟩ := h
    omega⟩

theorem witness_OutDeliversTheCurrentCell :
    { launch [0x2E#8] with dp := 2 }.dp < { launch [0x2E#8] with dp := 2 }.tapeSize ∧
      (launch [0x2E#8]).run = .running ∧ (launch [0x2E#8]).prog[(launch [0x2E#8]).ip]? = some 0x2E#8 := by decide

/-- Its clauses: a wait; the end of input before some events; a byte; EOF under either policy. -/
theorem witness_InStoresTheNextInputByte :
    ((launch [0x2C#8]).run = .running ∧ (launch [0x2C#8]).prog[(launch [0x2C#8]).ip]? = some 0x2C#8) ∧
    (∃ t, (∀ e ∈ [HostEvent.stall, .serve], ∀ h, e ≠ .reset h) ∧ (launch [0x2C#8]).input = [] ∧
      hostRun [.stall, .serve] (launch [0x2C#8]) = .next t) ∧
    ({ launch [0x2C#8] with dp := 2 }.dp < { launch [0x2C#8] with dp := 2 }.tapeSize ∧
      { launch [0x2C#8] with input := [0x00#8] }.input = 0x00#8 :: []) ∧
    ((launchWrap []).input = [] ∧ (launchWrap []).eofPolicy = .zero) ∧
    ((launch []).input = [] ∧ (launch []).eofPolicy = .unchanged) :=
  ⟨by decide, ⟨_, by simp, by decide, rfl⟩, by decide, by decide, by decide⟩

theorem witness_CommentOnlyAdvances :
    (0x5C#8 : Byte) ∉ [0x2B#8, 0x2C#8, 0x2D#8, 0x2E#8, 0x3C#8, 0x3E#8, 0x5B#8, 0x5D#8] ∧
      0 < (HostSetup.mk 1 [0x78#8, 0x00#8] .fault .zero []).tapeSize ∧
      ∀ b ∈ (HostSetup.mk 1 [0x78#8, 0x00#8] .fault .zero []).prog, decodeByte b = .nop b := by decide

/-- Each storing instruction, and `,` at the end of input under `unchanged`. -/
theorem witness_FrameOfTheStoringInstructions :
    (∃ t, exec .inc (launch []) = .next t) ∧ (∃ t, exec .dec (launch []) = .next t) ∧
      ∃ t, exec .inp (launch []) = .next t ∧ (launch []).input = [] ∧ (launch []).eofPolicy = .unchanged :=
  ⟨⟨_, rfl⟩, ⟨_, rfl⟩, _, rfl, rfl, rfl⟩

theorem witness_FrameOfTheInstructionsThatStoreNothing :
    (∃ t, exec .right (launch []) = .next t) ∧ (∃ t, exec .left (launch []) = .next t) ∧
      (∃ t, exec .jz (launch []) = .next t) ∧ (∃ t, exec .jnz (launch []) = .next t) ∧
      (∃ t, exec .out (launch []) = .next t) ∧ ∃ t, exec (.nop 0x61#8) (launch []) = .next t :=
  ⟨⟨_, rfl⟩, ⟨_, rfl⟩, ⟨_, rfl⟩, ⟨_, rfl⟩, ⟨_, rfl⟩, _, rfl⟩

theorem witness_ResolverFindsTheCountedMatch :
    ([0x5B#8, 0x5D#8] : List Byte)[0]? = some 0x5B#8 ∧ resolve [0x5B#8, 0x5D#8] 0 = some 1 ∧
      ([0x5B#8, 0x5D#8] : List Byte)[1]? = some 0x5D#8 ∧ resolve [0x5B#8, 0x5D#8] 1 = some 0 := by decide

theorem witness_ResolverRefusesANonBracket :
    ([0x2B#8] : List Byte)[0]? ≠ some 0x5B#8 ∧ ([0x2B#8] : List Byte)[0]? ≠ some 0x5D#8 := by decide

theorem witness_ResolverRoundTrip : resolve [0x5B#8, 0x5B#8, 0x5D#8, 0x5D#8] 0 = some 3 := by decide

theorem witness_NestedPairsResolveAtEveryDepth : 0 < 1 ∧ 2 < 3 := by decide

/-- A forward scan that fails at the last position, and a backward one at position 0. -/
theorem witness_NestingCounterStaysInRange :
    (([0x5B#8, 0x5B#8] : List Byte)[0]? = some 0x5B#8 ∧ 0 ≤ 1 ∧ 1 < (resolve [0x5B#8, 0x5B#8] 0).getD 2) ∧
    (([0x5D#8, 0x5D#8] : List Byte)[1]? = some 0x5D#8 ∧ 0 ≤ 1 ∧ resolve [0x5D#8, 0x5D#8] 1 = none) := by decide

theorem witness_FaultsArePreciseAndTerminal :
    (launch [0x5B#8]).run = .running ∧ ∃ t, exec .jz (launch [0x5B#8]) = .next t ∧ t.run = .faulted :=
  ⟨rfl, _, rfl, rfl⟩

theorem witness_ExactlyTwoFaults :
    (MachineInv (launch [0x5B#8]) ∧ (launch [0x5B#8]).run = .running ∧
      ∃ t, step (launch [0x5B#8]) = .next t ∧ t.faultCause = .malformedProgram) ∧
    (MachineInv (launch [0x3C#8]) ∧ (launch [0x3C#8]).run = .running ∧
      ∃ t, step (launch [0x3C#8]) = .next t ∧ t.faultCause = .tapeBoundsError) :=
  ⟨⟨by constructor <;> decide, rfl, _, rfl, rfl⟩, by constructor <;> decide, rfl, _, rfl, rfl⟩

theorem witness_AccessOffTheTapeIsNamed : { launch [] with dp := 3 }.tapeSize ≤ { launch [] with dp := 3 }.dp := by decide

theorem witness_StepKeepsTheInvariants : MachineInv (launch [0x2B#8]) ∧ ∃ t, step (launch [0x2B#8]) = .next t :=
  ⟨inv_launch, _, rfl⟩

theorem witness_EveryReachedStateMeetsTheInvariants :
    0 < (HostSetup.mk 1 [0x2C#8] .fault .zero []).tapeSize ∧
      ∀ g, HostEvent.reset g ∈ [HostEvent.stall, .reset ⟨2, [], .wrap, .zero, []⟩, .serve] → 0 < g.tapeSize :=
  ⟨by decide, by simp⟩

theorem witness_StepAlwaysHasANextState : MachineInv (launch [0x2B#8]) := inv_launch

theorem witness_FaultRecordStaysJustified :
    MachineInv (launch [0x2B#8]) ∧ FaultJustified (launch [0x2B#8]) ∧ ∃ t, step (launch [0x2B#8]) = .next t :=
  ⟨inv_launch, ⟨fun h => absurd h (by decide), fun h => absurd h (by decide)⟩, _, rfl⟩

theorem witness_HaltingLeavesTheNewlineLast :
    MachineInv (launch []) ∧ HaltedAfterNewline (launch []) ∧ (launch []).run = .running ∧
      ∃ t, step (launch []) = .next t ∧ t.run = .halted :=
  ⟨by constructor <;> decide, fun h => absurd h (by decide), rfl, _, rfl, rfl⟩

/-- Its clauses: a taken `[`, a taken `]`, an instruction that does not redirect. -/
theorem witness_WhereTheInstructionPointerGoes :
    (MachineInv (launch [0x5B#8, 0x5D#8]) ∧ (launch [0x5B#8, 0x5D#8]).run = .running ∧
      (∃ t, step (launch [0x5B#8, 0x5D#8]) = .next t ∧ t.run = .running) ∧ cell (launch [0x5B#8, 0x5D#8]) = 0#8) ∧
    (MachineInv (withCell { launch [0x5B#8, 0x5D#8] with ip := 1 } 0x01#8) ∧
      (∃ t, step (withCell { launch [0x5B#8, 0x5D#8] with ip := 1 } 0x01#8) = .next t ∧ t.run = .running) ∧
      cell (withCell { launch [0x5B#8, 0x5D#8] with ip := 1 } 0x01#8) ≠ 0#8) ∧
    (MachineInv (launch [0x2B#8]) ∧ ∃ t, step (launch [0x2B#8]) = .next t ∧ t.run = .running) :=
  ⟨⟨by constructor <;> decide, rfl, ⟨_, rfl, rfl⟩, by decide⟩,
    ⟨by constructor <;> decide, ⟨_, rfl, rfl⟩, by decide⟩, inv_launch, _, rfl, rfl⟩

theorem witness_ConfigurationIsConstantInARun :
    (∀ e ∈ [HostEvent.serve, .stall], ∀ h, e ≠ .reset h) ∧
      ∃ t, hostRun [.serve, .stall] (launch [0x2B#8]) = .next t :=
  ⟨by simp, _, rfl⟩

/-- Its clauses: a step that writes the tape, and one that moves `DP`. -/
theorem witness_OnlyTheCurrentCellChanges :
    (∃ t, step (launch [0x2B#8]) = .next t ∧ t.tape ≠ (launch [0x2B#8]).tape) ∧
      ∃ t, step (launch [0x3E#8]) = .next t ∧ t.dp ≠ (launch [0x3E#8]).dp :=
  ⟨⟨_, rfl, by decide⟩, _, rfl, by decide⟩

/-- Its clauses: `.`, END, anything else. -/
theorem witness_WhatAStepDelivers :
    (∃ t, step (launch [0x2E#8]) = .next t ∧ (launch [0x2E#8]).prog[(launch [0x2E#8]).ip]? = some 0x2E#8) ∧
    (∃ t, step (launch []) = .next t ∧ (launch []).ip = (launch []).progLen) ∧
    ∃ t, step (launch [0x2B#8]) = .next t ∧ ¬((launch [0x2B#8]).run = .running ∧
      ((launch [0x2B#8]).prog[(launch [0x2B#8]).ip]? = some 0x2E#8 ∨ (launch [0x2B#8]).ip = (launch [0x2B#8]).progLen)) :=
  ⟨⟨_, rfl, by decide⟩, ⟨_, rfl, by decide⟩, _, rfl, by decide⟩

/-- Its clauses: `,`, anything else. -/
theorem witness_WhatAStepConsumes :
    (∃ t, step { launch [0x2C#8] with input := [0x41#8] } = .next t ∧
      (launch [0x2C#8]).prog[(launch [0x2C#8]).ip]? = some 0x2C#8) ∧
    ∃ t, step (launch [0x2B#8]) = .next t ∧
      ¬((launch [0x2B#8]).run = .running ∧ (launch [0x2B#8]).prog[(launch [0x2B#8]).ip]? = some 0x2C#8) :=
  ⟨⟨_, rfl, by decide⟩, _, rfl, by decide⟩

theorem witness_OutputIsUnreadable : ∃ t, step (launch [0x2E#8]) = .next t := ⟨_, rfl⟩

/-- Its clauses: a step that is not that of `,`, and a `,` that gets a byte. -/
theorem witness_OnlyInLearnsTheInput :
    (∃ t, step (launch [0x2B#8]) = .next t ∧
      ¬((launch [0x2B#8]).run = .running ∧ (launch [0x2B#8]).prog[(launch [0x2B#8]).ip]? = some 0x2C#8)) ∧
    ∃ t, step { launch [0x2C#8] with input := [0x41#8] } = .next t ∧
      (launch [0x2C#8]).run = .running ∧ { launch [0x2C#8] with input := [0x41#8] }.input = 0x41#8 :: [] :=
  ⟨⟨_, rfl, by decide⟩, _, rfl, by decide⟩

theorem witness_OtherCellsDoNotMatter :
    Memory.read [(1, 0x09#8)] (launch [0x2B#8]).dp = (launch [0x2B#8]).tape.read (launch [0x2B#8]).dp ∧
      ∃ t, step (launch [0x2B#8]) = .next t :=
  ⟨by decide, _, rfl⟩

theorem witness_RereadingTheBracketChangesNothing :
    (MachineInv (launch [0x5B#8, 0x5D#8]) ∧ (launch [0x5B#8, 0x5D#8]).run = .running ∧
      cell (launch [0x5B#8, 0x5D#8]) = 0#8 ∧ resolve [0x5B#8, 0x5D#8] 0 = some 1) ∧
    (MachineInv (withCell { launch [0x5B#8, 0x5D#8] with ip := 1 } 0x01#8) ∧
      cell (withCell { launch [0x5B#8, 0x5D#8] with ip := 1 } 0x01#8) ≠ 0#8 ∧ resolve [0x5B#8, 0x5D#8] 1 = some 0) :=
  ⟨⟨by constructor <;> decide, rfl, by decide, by decide⟩, by constructor <;> decide, by decide, by decide⟩

/-- Its clauses: the instructions in a row, and a program of one `+` and of none on a tape of one cell. -/
theorem witness_RunsOfCellArithmetic :
    ((launch []).run = .running ∧ (launch []).dp < (launch []).tapeSize) ∧
    (0 < (HostSetup.mk 1 [0x2B#8] .fault .zero []).tapeSize ∧
      (HostSetup.mk 1 [0x2B#8] .fault .zero []).prog = List.replicate 1 0x2B#8 ∧
      (HostSetup.mk 1 [] .fault .zero []).prog = List.replicate 0 0x2B#8) := by decide

/-- Its clauses, `k` at its boundaries under `fault`: the last move that stays on the tape, and the first that does not. -/
theorem witness_RunsOfPointerMoves :
    ((launchWrap []).run = .running ∧ (launchWrap []).dp < (launchWrap []).tapeSize ∧
      (launchWrap []).tapePolicy = .wrap) ∧
    ((launch []).tapePolicy = .fault ∧ (launch []).dp + 2 < (launch []).tapeSize ∧
      (launch []).tapeSize ≤ (launch []).dp + 3) ∧
    ((launch []).dp + 1 < (launch []).tapeSize ∧ 1 ≤ { launch [] with dp := 1 }.dp) := by decide

/-- Its clauses: a wait on either channel, no wait, a stopped core. -/
theorem witness_WaitsInExactlyTwoPlaces :
    pendingTransfer (launch [0x2C#8]) = some .input ∧ pendingTransfer (launch []) = some .output ∧
      (pendingTransfer (launch [0x2B#8]) = none ∧ ∃ t, step (launch [0x2B#8]) = .next t) ∧
      (halt (launch [])).run ≠ .running :=
  ⟨by decide, by decide, ⟨by decide, _, rfl⟩, by decide⟩

/-- R25, R26, R220: `STATUS` after each fault (S8, V18) and after the halt (V1). -/
theorem test_status_reads :
    (after (step (launch [0x5B#8]))).map status = some ⟨2, 1, 0⟩ ∧
      (after (step (launch [0x3C#8]))).map status = some ⟨2, 2, 0⟩ ∧
      (after (step (launch []))).map status = some ⟨1, 0, 0⟩ := by decide

theorem witness_StatusReadsTheCodes :
    (MachineInv (launch []) ∧ (launch []).run ≠ .faulted) ∧
      MachineInv (raiseFault .tapeBoundsError 0 (launch [0x3C#8])) ∧
      (raiseFault .tapeBoundsError 0 (launch [0x3C#8])).run = .faulted :=
  ⟨⟨by constructor <;> decide, by decide⟩, by constructor <;> decide, by decide⟩

theorem witness_ExitStatusTellsHowTheRunEnded :
    (launch []).run = .running ∧ (halt (launch [])).run = .halted ∧
      (raiseFault .tapeBoundsError 0 (launch [])).run = .faulted := by decide

theorem witness_TapesThatReadAlikeAreEqual :
    Memory.wf [(0, 0x01#8), (2, 0x05#8)] ∧ ∀ a, Memory.read [(0, 0x01#8)] a = Memory.read [(0, 0x01#8)] a :=
  ⟨by decide, fun _ => rfl⟩

end Sys2Proof.Tests
end

section
/-! PROOFS. The invariants of R33: each update of the state keeps them under its own side condition, so every instruction,
every step and every event of the host does. -/

namespace Sys2Proof

open Sys2Proof.Machine

variable {s t : State}

/-- R32's reset values meet the invariants of R33. -/
theorem MachineInv.ofSetup {h : HostSetup} (hn : 0 < h.tapeSize) : MachineInv (State.ofSetup h) where
  tapeSize_pos := hn
  ip_le := Nat.zero_le _
  dp_lt := hn
  tape_wf := Memory.ofSetup_wf h
  tape_bound := by simp [State.ofSetup]
  running := fun _ => rfl
  halted := nofun
  faulted := nofun
  faultIp_zero := fun _ => rfl

theorem MachineInv.setIp (hs : MachineInv s) (hr : s.run = .running) {p : Nat} (hp : p ≤ s.progLen) :
    MachineInv (s.setIp p) :=
  { hs with
    ip_le := hp
    halted := fun h => by simp [hr] at h
    faulted := fun h => by simp [hr] at h }

theorem MachineInv.setDp (hs : MachineInv s) {d : Nat} (hd : d < s.tapeSize) : MachineInv (s.setDp d) :=
  { hs with dp_lt := hd }

theorem MachineInv.setInput (hs : MachineInv s) (bs : List Byte) : MachineInv (s.setInput bs) := { hs with }

theorem MachineInv.setOutput (hs : MachineInv s) (bs : List Byte) : MachineInv (s.setOutput bs) := { hs with }

theorem MachineInv.writeTape (hs : MachineInv s) (v : Byte) : MachineInv (s.setTape (s.tape.write s.dp v)) :=
  { hs with
    tape_wf := Memory.write_wf s.dp v hs.tape_wf
    tape_bound := Memory.write_bound v hs.tape_bound hs.dp_lt }

theorem MachineInv.raiseFault (hs : MachineInv s) (f : CoreFault) (hip : s.ip < s.progLen) :
    MachineInv (raiseFault f s.ip s) :=
  { hs with
    running := nofun
    halted := nofun
    faulted := fun _ => ⟨by cases f <;> simp [raiseFault_eq, CoreFault.cause], rfl, hip⟩
    faultIp_zero := fun h => absurd rfl h }

theorem MachineInv.halt (hs : MachineInv s) (hr : s.run = .running) (hip : s.ip = s.progLen) :
    MachineInv (halt s) :=
  { hs with
    running := nofun
    halted := fun _ => ⟨hip, hs.running hr⟩
    faulted := nofun
    faultIp_zero := fun _ => hs.faultIp_zero (by simp [hr]) }

/-- Whether it finds its match or not, a taken jump keeps the invariants: the match lies inside the program. -/
theorem MachineInv.takeJump (hs : MachineInv s) (hr : s.run = .running) (hip : s.ip < s.progLen)
    (h : (∃ q, resolve s.prog s.ip = some q ∧ t = s.setIp (q + 1)) ∨
      (resolve s.prog s.ip = none ∧ t = Machine.raiseFault .malformedProgram s.ip s)) : MachineInv t := by
  obtain ⟨q, hq, rfl⟩ | ⟨-, rfl⟩ := h
  · exact hs.setIp hr (resolve_some hq).1
  · exact hs.raiseFault _ hip

/-- Every instruction that a Running core executes inside its program keeps the invariants. -/
theorem exec_keeps_inv {i : Instr} (hs : MachineInv s) (hr : s.run = .running) (hip : s.ip < s.progLen)
    (h : exec i s = .next t) : MachineInv t := by
  cases i with
  | inc =>
    obtain ⟨-, rfl⟩ := exec_inc_iff.1 h
    exact (hs.writeTape _).setIp hr hip
  | dec =>
    obtain ⟨-, rfl⟩ := exec_dec_iff.1 h
    exact (hs.writeTape _).setIp hr hip
  | right =>
    obtain ⟨hd, rfl⟩ | ⟨-, -, rfl⟩ | ⟨-, -, rfl⟩ := exec_right_iff.1 h
    · exact (hs.setDp hd).setIp hr hip
    · exact (hs.setDp hs.tapeSize_pos).setIp hr hip
    · exact hs.raiseFault _ hip
  | left =>
    obtain ⟨-, rfl⟩ | ⟨-, -, rfl⟩ | ⟨-, -, rfl⟩ := exec_left_iff.1 h
    · exact (hs.setDp (Nat.lt_of_le_of_lt (Nat.sub_le _ _) hs.dp_lt)).setIp hr hip
    · exact (hs.setDp (Nat.sub_lt hs.tapeSize_pos Nat.one_pos)).setIp hr hip
    · exact hs.raiseFault _ hip
  | jz =>
    obtain ⟨-, ⟨-, rfl⟩ | ⟨-, hj⟩⟩ := exec_jz_iff.1 h
    · exact hs.setIp hr hip
    · exact hs.takeJump hr hip hj
  | jnz =>
    obtain ⟨-, ⟨-, rfl⟩ | ⟨-, hj⟩⟩ := exec_jnz_iff.1 h
    · exact hs.setIp hr hip
    · exact hs.takeJump hr hip hj
  | out =>
    obtain ⟨-, rfl⟩ := exec_out_iff.1 h
    exact (hs.setOutput (s.output ++ [s.tape.read s.dp])).setIp hr hip
  | inp =>
    obtain ⟨b, rest, -, -, rfl⟩ | ⟨-, -, -, rfl⟩ | ⟨-, -, rfl⟩ := exec_inp_iff.1 h
    · exact ((hs.setInput rest).writeTape b).setIp hr hip
    · exact (hs.writeTape _).setIp hr hip
    · exact hs.setIp hr hip
  | nop b =>
    obtain rfl := exec_nop_iff.1 h
    exact hs.setIp hr hip

/-- Settles O31: a stopped core stays as it is, the halt and every instruction keep the invariants. -/
theorem stepKeepsTheInvariants : Obligations.StepKeepsTheInvariants := by
  intro s t hs h
  obtain ⟨-, rfl⟩ | ⟨hr, -, hip, rfl⟩ | ⟨hr, -, b, hb, hx⟩ := step_cases h
  · exact hs
  · exact hs.halt hr hip
  · exact exec_keeps_inv hs hr (List.getElem?_eq_some_iff.1 hb).1 hx

theorem movePointer_has_next (onTape : Bool) (target wrapped : Nat) (s : State) :
    ∃ t, movePointer onTape target wrapped s = .next t := by
  obtain ⟨-, h⟩ | ⟨-, -, h⟩ | ⟨-, -, h⟩ := movePointer_cases onTape target wrapped s
  all_goals exact ⟨_, h⟩

theorem takeJump_has_next (s : State) : ∃ t, takeJump s = .next t := by
  obtain ⟨q, -, h⟩ | ⟨-, h⟩ := takeJump_cases s
  all_goals exact ⟨_, h⟩

/-- With `DP` on the tape every instruction has a next state. -/
theorem exec_has_next (i : Instr) (hd : s.dp < s.tapeSize) : ∃ t, exec i s = .next t := by
  cases i with
  | inc => exact ⟨_, exec_inc_iff.2 ⟨hd, rfl⟩⟩
  | dec => exact ⟨_, exec_dec_iff.2 ⟨hd, rfl⟩⟩
  | right => exact movePointer_has_next _ _ _ s
  | left => exact movePointer_has_next _ _ _ s
  | jz =>
    rw [exec, execJz, readCell_of_lt hd]
    split
    · exact takeJump_has_next s
    · exact ⟨_, rfl⟩
  | jnz =>
    rw [exec, execJnz, readCell_of_lt hd]
    split
    · exact ⟨_, rfl⟩
    · exact takeJump_has_next s
  | out => exact ⟨_, exec_out_iff.2 ⟨hd, rfl⟩⟩
  | inp =>
    cases hi : s.input with
    | cons b rest => exact ⟨_, exec_inp_iff.2 (.inl ⟨b, rest, hi, hd, rfl⟩)⟩
    | nil =>
      cases he : s.eofPolicy with
      | zero => exact ⟨_, exec_inp_iff.2 (.inr (.inl ⟨hi, he, hd, rfl⟩))⟩
      | unchanged => exact ⟨_, exec_inp_iff.2 (.inr (.inr ⟨hi, he, rfl⟩))⟩
  | nop b => exact ⟨_, exec_nop_iff.2 rfl⟩

/-- Settles O33: a stopped core answers itself, and a Running one stands at the sentinel, where it halts, or at a byte,
whose instruction has a next state. -/
theorem stepAlwaysHasANextState : Obligations.StepAlwaysHasANextState := by
  intro s hs
  by_cases hr : s.run = .running
  · obtain he | hlt := Nat.eq_or_lt_of_le hs.ip_le
    · exact ⟨_, step_of_end hr hs.tapeSize_pos he⟩
    · rw [step_of_byte hr hs.tapeSize_pos (List.getElem?_eq_getElem hlt)]
      exact exec_has_next _ hs.dp_lt
  · exact ⟨s, step_of_stopped hr⟩

/-- Every event of the host, a legal reset among them, has a next state that meets the invariants. -/
theorem hostEvent_keeps_inv (e : HostEvent) (he : ∀ g, e = .reset g → 0 < g.tapeSize) (hs : MachineInv s) :
    ∃ t, hostEvent e s = .next t ∧ MachineInv t := by
  obtain ⟨u, hu⟩ := stepAlwaysHasANextState s hs
  have hinv := stepKeepsTheInvariants s u hs hu
  cases e with
  | serve => exact ⟨u, hu, hinv⟩
  | stall =>
    by_cases hp : (pendingTransfer s).isSome
    · exact ⟨s, by simp [hostEvent, hp], hs⟩
    · exact ⟨u, by simpa [hostEvent, hp] using hu, hinv⟩
  | reset g =>
    have hg := he g rfl
    exact ⟨State.ofSetup g, by simp [hostEvent, assertReset, Nat.ne_of_gt hg], .ofSetup hg⟩

theorem hostRun_keeps_inv (es : List HostEvent) (hes : ∀ g, HostEvent.reset g ∈ es → 0 < g.tapeSize)
    (hs : MachineInv s) : ∃ t, hostRun es s = .next t ∧ MachineInv t := by
  induction es generalizing s with
  | nil => exact ⟨s, rfl, hs⟩
  | cons e es ih =>
    obtain ⟨u, hu, hinv⟩ := hostEvent_keeps_inv e (fun g hg => hes g (hg ▸ List.mem_cons_self)) hs
    obtain ⟨t, ht, hinv'⟩ := ih (fun g hg => hes g (List.mem_cons_of_mem _ hg)) hinv
    exact ⟨t, hostRun_cons_iff.2 ⟨u, hu, ht⟩, hinv'⟩

/-- Settles O32: the launch meets the invariants and every event of the host keeps them. -/
theorem everyReachedStateMeetsTheInvariants : Obligations.EveryReachedStateMeetsTheInvariants :=
  fun _ es hn hes => hostRun_keeps_inv es hes (.ofSetup hn)

/-- Settles O7: the reset values meet the invariants, and no fault or halt stands in them. -/
theorem launchStatesMeetTheInvariants : Obligations.LaunchStatesMeetTheInvariants := by
  refine ⟨fun h hn => ⟨.ofSetup hn, ?_, ?_⟩, .ofSetup (by decide)⟩
  · exact ⟨nofun, nofun⟩
  · exact nofun

/-- A cause other than None reads as code 1 or 2 (R26). -/
theorem faultCause_code_of_ne_none {c : FaultCause} (h : c ≠ .none) : c.code = 1 ∨ c.code = 2 := by
  cases c with
  | none => exact absurd rfl h
  | malformedProgram => exact .inl rfl
  | tapeBoundsError => exact .inr rfl

/-- While the core is not Faulted its cause is None. -/
theorem MachineInv.faultCause_none (hs : MachineInv s) (hr : s.run ≠ .faulted) : s.faultCause = .none := by
  cases h : s.run with
  | running => exact hs.running h
  | halted => exact (hs.halted h).2
  | faulted => exact absurd h hr

/-- Settles O48: `STATUS` reads the fields, and the invariants say what the record holds in each run state. -/
theorem statusReadsTheCodes : Obligations.StatusReadsTheCodes := by
  refine ⟨rfl, rfl, rfl, rfl, rfl, rfl, fun s => ⟨rfl, rfl, rfl⟩, fun s hs => ⟨fun hr => ?_, fun hr => ?_⟩⟩
  · exact ⟨congrArg FaultCause.code (hs.faultCause_none hr), hs.faultIp_zero hr⟩
  · obtain ⟨hc, hp, hlt⟩ := hs.faulted hr
    exact ⟨faultCause_code_of_ne_none hc, hp, hp.trans_lt hlt⟩

end Sys2Proof
end

section
/-! PROOFS. The canonical form of the tape: what it reads determines its entries. -/

namespace Sys2Proof.Machine

/-- A canonical memory lists exactly the addresses that do not read 0, each with the byte it reads. -/
theorem Memory.mem_iff_read {m : Memory} (h : m.wf) (c : Host.Cell) : c ∈ m ↔ m.read c.1 = c.2 ∧ c.2 ≠ 0#8 := by
  obtain ⟨hp, hz⟩ := h
  induction m with
  | nil => simpa using Eq.symm
  | cons d m ih =>
    obtain ⟨hlt, hp⟩ := List.pairwise_cons.1 hp
    have ih := ih hp fun c hc => hz c (List.mem_cons_of_mem _ hc)
    by_cases hd : d.1 = c.1
    · have hc : c ∉ m := fun hc => absurd hd (Nat.ne_of_lt (hlt c hc))
      have hdz := hz d List.mem_cons_self
      simp only [List.mem_cons, hc, or_false, Memory.read, hd, if_true]
      constructor
      · rintro rfl
        exact ⟨rfl, hdz⟩
      · exact fun h => Prod.ext hd.symm h.1.symm
    · have hc : c ≠ d := fun hc => hd (hc ▸ rfl)
      simpa [Memory.read, hd, hc] using ih

/-- Settles O50: two canonical memories that read alike list the same entries, in the one order the form allows. -/
theorem tapesThatReadAlikeAreEqual : Obligations.TapesThatReadAlikeAreEqual := by
  intro m n hm hn h
  have hmem : ∀ c, c ∈ m ↔ c ∈ n := fun c => by rw [Memory.mem_iff_read hm, Memory.mem_iff_read hn, h]
  have : Std.Irrefl fun c d : Host.Cell => c.1 < d.1 := ⟨fun c => Nat.lt_irrefl c.1⟩
  have : Std.Antisymm fun c d : Host.Cell => c.1 < d.1 := ⟨fun c d hcd hdc => absurd hdc (Nat.lt_asymm hcd)⟩
  exact List.Pairwise.eq_of_mem_iff hm.1 hn.1 hmem

end Sys2Proof.Machine
end

section
/-! PROOFS. What a step does, as data: the values it gives the registers, the byte it stores in the current cell, how many
bytes it takes from INPUT and which it adds to OUTPUT. `exec_effect` and `step_effect` say that every instruction and every
step is such an effect, within the limits of the instruction executed, and that it is the same effect with any other bytes
on the channels and on any tape that agrees on the current cell. The frames and the statements about what a step cannot
learn are read off them. -/

namespace Sys2Proof

open Sys2Proof.Machine

variable {s t : State}

/-! ## Effects -/

/-- What an instruction or a step does to a state. -/
structure Effect where
  ip : Nat
  dp : Nat
  run : RunState
  faultCause : FaultCause
  faultIp : Nat
  stored : Option Byte
  taken : Nat
  delivered : List Byte

/-- The tape after a byte, or none, is stored at `a`. -/
def storeAt (m : Memory) (a : Nat) : Option Byte → Memory
  | none => m
  | some v => m.write a v

theorem storeAt_read_other (m : Memory) (o : Option Byte) {a b : Nat} (h : b ≠ a) :
    (storeAt m a o).read b = m.read b := by
  cases o with
  | none => rfl
  | some v => exact Memory.read_write_other m v h

/-- A store leaves the same byte at `a` on two tapes that agree there. -/
theorem storeAt_read_congr {m n : Memory} {a : Nat} (o : Option Byte) (h : m.read a = n.read a) :
    (storeAt m a o).read a = (storeAt n a o).read a := by
  cases o with
  | none => exact h
  | some v => simp [storeAt]

/-- The state after an effect. The configuration is in no effect's reach. -/
def Effect.apply (e : Effect) (s : State) : State :=
  { s with
    ip := e.ip
    dp := e.dp
    tape := storeAt s.tape s.dp e.stored
    run := e.run
    faultCause := e.faultCause
    faultIp := e.faultIp
    input := s.input.drop e.taken
    output := s.output ++ e.delivered }

/-- Going to the position `p`; with `p = s.ip`, doing nothing. -/
def Effect.goto (s : State) (p : Nat) : Effect where
  ip := p
  dp := s.dp
  run := s.run
  faultCause := s.faultCause
  faultIp := s.faultIp
  stored := none
  taken := 0
  delivered := []

/-- Moving the pointer to `d`. -/
def Effect.move (s : State) (d : Nat) : Effect := { Effect.goto s (s.ip + 1) with dp := d }

/-- Storing `v` in the current cell. -/
def Effect.store (s : State) (v : Byte) : Effect := { Effect.goto s (s.ip + 1) with stored := some v }

/-- Asking for an input byte and storing what there is to store. -/
def Effect.take (s : State) (v : Option Byte) : Effect := { Effect.goto s (s.ip + 1) with stored := v, taken := 1 }

/-- Delivering the current cell. -/
def Effect.deliver (s : State) : Effect := { Effect.goto s (s.ip + 1) with delivered := [s.tape.read s.dp] }

/-- Entering Faulted at the instruction itself (R222). -/
def Effect.raise (s : State) (f : CoreFault) : Effect :=
  { Effect.goto s s.ip with run := .faulted, faultCause := f.cause, faultIp := s.ip }

/-- Halting (R102). -/
def Effect.halt (s : State) : Effect := { Effect.goto s s.ip with run := .halted, delivered := [newline] }

/-- The limits of what executing `o` does; a step that executes no instruction has `o = none`. -/
structure Effect.Within (e : Effect) (s : State) (o : Option Instr) : Prop where
  stored : e.stored = none ∨ o = some .inc ∨ o = some .dec ∨ o = some .inp
  stored_eof : o = some .inp → s.input = [] → s.eofPolicy = .unchanged → e.stored = none
  taken : e.taken = if o = some .inp then 1 else 0
  dp : e.dp = s.dp ∨ o = some .right ∨ o = some .left
  delivered : e.delivered = [] ∨ o = none ∨ o = some .out
  record : e.run = s.run ∧ e.faultCause = s.faultCause ∧ e.faultIp = s.faultIp ∨
    o = none ∨ o = some .right ∨ o = some .left ∨ o = some .jz ∨ o = some .jnz

/-- The same core with other bytes on the channels and another tape. -/
def Machine.State.withSurroundings (s : State) (bs out : List Byte) (m : Memory) : State :=
  { s with input := bs, output := out, tape := m }

/-- `e` is what `f`, which executes `o`, does to `s`, and what it does with any other bytes on the channels and on any
other tape, as long as the current cell is the same and, where `f` takes a byte, the first one is. -/
structure IsEffect (f : State → Result) (o : Option Instr) (s : State) (e : Effect) : Prop where
  within : e.Within s o
  answers : ∀ bs out m, m.read s.dp = s.tape.read s.dp → (o = some .inp → bs.head? = s.input.head?) →
    f (s.withSurroundings bs out m) = .next (e.apply (s.withSurroundings bs out m))

theorem IsEffect.apply_eq {f : State → Result} {o : Option Instr} {e : Effect} (he : IsEffect f o s e)
    (h : f s = .next t) : t = e.apply s :=
  Host.Outcome.next.inj (h.symm.trans (he.answers s.input s.output s.tape rfl fun _ => rfl))

/-! ## The limits of each kind of effect, and the state after it -/

section
variable {o : Option Instr}

theorem Effect.goto_within (p : Nat) (ho : o ≠ some .inp) : (Effect.goto s p).Within s o := by
  constructor <;> simp [Effect.goto, ho]

theorem Effect.move_within (d : Nat) (ho : o = some .right ∨ o = some .left) : (Effect.move s d).Within s o := by
  obtain rfl | rfl := ho
  all_goals constructor <;> simp [Effect.move, Effect.goto]

theorem Effect.store_within (v : Byte) (ho : o = some .inc ∨ o = some .dec) : (Effect.store s v).Within s o := by
  obtain rfl | rfl := ho
  all_goals constructor <;> simp [Effect.store, Effect.goto]

theorem Effect.take_within {v : Option Byte} (hv : s.input = [] → s.eofPolicy = .unchanged → v = none) :
    (Effect.take s v).Within s (some .inp) := by
  constructor <;> simp [Effect.take, Effect.goto]
  exact hv

theorem Effect.deliver_within : (Effect.deliver s).Within s (some .out) := by
  constructor <;> simp [Effect.deliver, Effect.goto]

theorem Effect.raise_within (f : CoreFault)
    (ho : o = some .right ∨ o = some .left ∨ o = some .jz ∨ o = some .jnz) : (Effect.raise s f).Within s o := by
  obtain rfl | rfl | rfl | rfl := ho
  all_goals constructor <;> simp [Effect.raise, Effect.goto]

theorem Effect.halt_within : (Effect.halt s).Within s none := by
  constructor <;> simp [Effect.halt, Effect.goto]

end

section
variable {bs out : List Byte} {m : Memory}

theorem Effect.goto_apply (p : Nat) :
    (Effect.goto s p).apply (s.withSurroundings bs out m) = (s.withSurroundings bs out m).setIp p := by
  simp [Effect.goto, Effect.apply, storeAt, State.withSurroundings, State.setIp]

theorem Effect.move_apply (d : Nat) : (Effect.move s d).apply (s.withSurroundings bs out m) =
    ((s.withSurroundings bs out m).setDp d).setIp (s.ip + 1) := by
  simp [Effect.move, Effect.goto, Effect.apply, storeAt, State.withSurroundings, State.setDp, State.setIp]

theorem Effect.store_apply (v : Byte) : (Effect.store s v).apply (s.withSurroundings bs out m) =
    ((s.withSurroundings bs out m).setTape (m.write s.dp v)).setIp (s.ip + 1) := by
  simp [Effect.store, Effect.goto, Effect.apply, storeAt, State.withSurroundings, State.setTape, State.setIp]

theorem Effect.take_apply (v : Option Byte) : (Effect.take s v).apply (s.withSurroundings bs out m) =
    (((s.withSurroundings bs out m).setInput bs.tail).setTape (storeAt m s.dp v)).setIp (s.ip + 1) := by
  simp [Effect.take, Effect.goto, Effect.apply, State.withSurroundings, State.setInput, State.setTape, State.setIp]

theorem Effect.deliver_apply : (Effect.deliver s).apply (s.withSurroundings bs out m) =
    ((s.withSurroundings bs out m).setOutput (out ++ [s.tape.read s.dp])).setIp (s.ip + 1) :=
  rfl

theorem Effect.raise_apply (f : CoreFault) :
    (Effect.raise s f).apply (s.withSurroundings bs out m) = raiseFault f s.ip (s.withSurroundings bs out m) := by
  simp [Effect.raise, Effect.goto, Effect.apply, storeAt, State.withSurroundings, raiseFault_eq]

theorem Effect.halt_apply :
    (Effect.halt s).apply (s.withSurroundings bs out m) = Machine.halt (s.withSurroundings bs out m) :=
  rfl

end

/-! ## Every instruction and every step is an effect -/

theorem exec_jz_of_zero (hd : s.dp < s.tapeSize) (hz : s.tape.read s.dp = 0#8) : exec .jz s = takeJump s := by
  simp [exec, execJz, readCell_of_lt hd, isZero, hz]

theorem exec_jnz_of_nonzero (hd : s.dp < s.tapeSize) (hz : s.tape.read s.dp ≠ 0#8) : exec .jnz s = takeJump s := by
  simp [exec, execJnz, readCell_of_lt hd, isZero, hz]

/-- The two outcomes of a taken jump, of a bracket `i` that takes one. -/
theorem takeJump_effect {i : Instr} (hi : i = .jz ∨ i = .jnz)
    (h : ∀ bs out m, m.read s.dp = s.tape.read s.dp →
      exec i (s.withSurroundings bs out m) = takeJump (s.withSurroundings bs out m)) :
    ∃ e, IsEffect (exec i) (some i) s e := by
  cases hq : resolve s.prog s.ip with
  | some q =>
    refine ⟨.goto s (q + 1), Effect.goto_within _ (by obtain rfl | rfl := hi <;> simp), fun bs out m hm _ => ?_⟩
    rw [h bs out m hm]
    exact takeJump_iff.2 (.inl ⟨q, hq, Effect.goto_apply _⟩)
  | none =>
    refine ⟨.raise s .malformedProgram, Effect.raise_within _ (by simpa using .inr (.inr hi)), fun bs out m hm _ => ?_⟩
    rw [h bs out m hm]
    exact takeJump_iff.2 (.inr ⟨hq, Effect.raise_apply _⟩)

/-- What an instruction that has a next state does. -/
theorem exec_effect {i : Instr} (h : exec i s = .next t) : ∃ e, IsEffect (exec i) (some i) s e := by
  cases i with
  | inc =>
    obtain ⟨hd, -⟩ := exec_inc_iff.1 h
    refine ⟨.store s (incByte (s.tape.read s.dp)), Effect.store_within _ (.inl rfl), fun bs out m hm _ => ?_⟩
    exact exec_inc_iff.2 ⟨hd, hm ▸ Effect.store_apply _⟩
  | dec =>
    obtain ⟨hd, -⟩ := exec_dec_iff.1 h
    refine ⟨.store s (decByte (s.tape.read s.dp)), Effect.store_within _ (.inr rfl), fun bs out m hm _ => ?_⟩
    exact exec_dec_iff.2 ⟨hd, hm ▸ Effect.store_apply _⟩
  | right =>
    obtain ⟨hd, -⟩ | ⟨hd, hp, -⟩ | ⟨hd, hp, -⟩ := exec_right_iff.1 h
    · exact ⟨.move s (s.dp + 1), Effect.move_within _ (.inl rfl),
        fun _ _ _ _ _ => exec_right_iff.2 (.inl ⟨hd, Effect.move_apply _⟩)⟩
    · exact ⟨.move s 0, Effect.move_within _ (.inl rfl),
        fun _ _ _ _ _ => exec_right_iff.2 (.inr (.inl ⟨hd, hp, Effect.move_apply _⟩))⟩
    · exact ⟨.raise s .tapeBoundsError, Effect.raise_within _ (.inl rfl),
        fun _ _ _ _ _ => exec_right_iff.2 (.inr (.inr ⟨hd, hp, Effect.raise_apply _⟩))⟩
  | left =>
    obtain ⟨hd, -⟩ | ⟨hd, hp, -⟩ | ⟨hd, hp, -⟩ := exec_left_iff.1 h
    · exact ⟨.move s (s.dp - 1), Effect.move_within _ (.inr rfl),
        fun _ _ _ _ _ => exec_left_iff.2 (.inl ⟨hd, Effect.move_apply _⟩)⟩
    · exact ⟨.move s (s.tapeSize - 1), Effect.move_within _ (.inr rfl),
        fun _ _ _ _ _ => exec_left_iff.2 (.inr (.inl ⟨hd, hp, Effect.move_apply _⟩))⟩
    · exact ⟨.raise s .tapeBoundsError, Effect.raise_within _ (.inr (.inl rfl)),
        fun _ _ _ _ _ => exec_left_iff.2 (.inr (.inr ⟨hd, hp, Effect.raise_apply _⟩))⟩
  | jz =>
    obtain ⟨hd, ⟨hz, -⟩ | ⟨hz, -⟩⟩ := exec_jz_iff.1 h
    · exact ⟨.goto s (s.ip + 1), Effect.goto_within _ (by simp),
        fun _ _ _ hm _ => exec_jz_iff.2 ⟨hd, .inl ⟨hm.trans_ne hz, Effect.goto_apply _⟩⟩⟩
    · exact takeJump_effect (.inl rfl) fun _ _ _ hm => exec_jz_of_zero hd (hm.trans hz)
  | jnz =>
    obtain ⟨hd, ⟨hz, -⟩ | ⟨hz, -⟩⟩ := exec_jnz_iff.1 h
    · exact ⟨.goto s (s.ip + 1), Effect.goto_within _ (by simp),
        fun _ _ _ hm _ => exec_jnz_iff.2 ⟨hd, .inl ⟨hm.trans hz, Effect.goto_apply _⟩⟩⟩
    · exact takeJump_effect (.inr rfl) fun _ _ _ hm => exec_jnz_of_nonzero hd (hm.trans_ne hz)
  | out =>
    obtain ⟨hd, -⟩ := exec_out_iff.1 h
    exact ⟨_, Effect.deliver_within, fun _ _ _ hm _ => exec_out_iff.2 ⟨hd, hm ▸ Effect.deliver_apply⟩⟩
  | inp =>
    obtain ⟨b, rest, hi, hd, -⟩ | ⟨hi, hp, hd, -⟩ | ⟨hi, hp, -⟩ := exec_inp_iff.1 h
    · refine ⟨.take s (some b), Effect.take_within (by simp [hi]), fun bs out m _ hb => ?_⟩
      obtain ⟨r, rfl⟩ : ∃ r, bs = b :: r := List.head?_eq_some_iff.1 (by simpa [hi] using hb rfl)
      exact exec_inp_iff.2 (.inl ⟨b, r, rfl, hd, Effect.take_apply _⟩)
    · refine ⟨.take s (some 0#8), Effect.take_within (by simp [hp]), fun bs out m _ hb => ?_⟩
      obtain rfl : bs = [] := List.head?_eq_none_iff.1 (by simpa [hi] using hb rfl)
      exact exec_inp_iff.2 (.inr (.inl ⟨rfl, hp, hd, Effect.take_apply _⟩))
    · refine ⟨.take s none, Effect.take_within fun _ _ => rfl, fun bs out m _ hb => ?_⟩
      obtain rfl : bs = [] := List.head?_eq_none_iff.1 (by simpa [hi] using hb rfl)
      exact exec_inp_iff.2 (.inr (.inr ⟨rfl, hp, Effect.take_apply _⟩))
  | nop b =>
    exact ⟨.goto s (s.ip + 1), Effect.goto_within _ (by simp), fun _ _ _ _ _ => exec_nop_iff.2 (Effect.goto_apply _)⟩

/-- The instruction that the next step of `s` executes: none where it halts, and none on a stopped core. -/
def nextInstr (s : State) : Option Instr :=
  match s.run with
  | .running => (s.prog[s.ip]?).map decodeByte
  | .halted | .faulted => none

theorem nextInstr_of_byte {b : Byte} (hr : s.run = .running) (hb : s.prog[s.ip]? = some b) :
    nextInstr s = some (decodeByte b) := by
  simp [nextInstr, hr, hb]

theorem nextInstr_of_end (he : s.ip = s.progLen) : nextInstr s = none := by
  cases hr : s.run <;> simp [nextInstr, hr, he]

theorem nextInstr_of_stopped (hr : s.run ≠ .running) : nextInstr s = none := by
  cases h : s.run with
  | running => exact absurd h hr
  | halted => simp [nextInstr, h]
  | faulted => simp [nextInstr, h]

/-- A well-formed instruction is read from its own byte alone (R82, R83). -/
theorem decodeByte_eq_iff_eq_encodeByte {i : Instr} (hi : i.wellFormed = true) (b : Byte) :
    decodeByte b = i ↔ b = encodeByte i := by
  cases i with
  | nop c =>
    simp only [Instr.wellFormed, isOpcode, opcodeBytes, Bool.not_eq_true', List.contains_eq_mem, decide_eq_false_iff_not,
      List.mem_cons, not_or] at hi
    constructor
    · intro h
      unfold decodeByte at h
      split_ifs at h
      simpa [encodeByte] using h
    · rintro rfl
      simp [decodeByte, hi]
  | _ => revert b; decide

/-- A well-formed instruction comes next just where a Running core stands at its byte. -/
theorem nextInstr_eq_iff {i : Instr} (hi : i.wellFormed = true) :
    nextInstr s = some i ↔ s.run = .running ∧ s.prog[s.ip]? = some (encodeByte i) := by
  cases hr : s.run <;> simp [nextInstr, hr, decodeByte_eq_iff_eq_encodeByte hi]

/-- What a step that has a next state does. -/
theorem step_effect (h : step s = .next t) : ∃ e, IsEffect step (nextInstr s) s e := by
  obtain ⟨hr, -⟩ | ⟨hr, hn, he, -⟩ | ⟨hr, hn, b, hb, hx⟩ := step_cases h
  · rw [nextInstr_of_stopped hr]
    refine ⟨.goto s s.ip, Effect.goto_within _ (by simp), fun bs out m _ _ => ?_⟩
    rw [Effect.goto_apply]
    exact step_of_stopped hr
  · rw [nextInstr_of_end he]
    refine ⟨.halt s, Effect.halt_within, fun bs out m _ _ => ?_⟩
    rw [Effect.halt_apply]
    exact step_of_end hr hn he
  · rw [nextInstr_of_byte hr hb]
    obtain ⟨e, he⟩ := exec_effect hx
    refine ⟨e, he.within, fun bs out m hm hi => ?_⟩
    exact (step_of_byte (s := s.withSurroundings bs out m) hr hn hb).trans (he.answers bs out m hm hi)

/-! ## Frames -/

/-- Settles O21: a storing instruction's effect is within its limits. -/
theorem frameOfTheStoringInstructions : Obligations.FrameOfTheStoringInstructions := by
  intro i s t hi h
  obtain ⟨e, he⟩ := exec_effect h
  obtain rfl := he.apply_eq h
  have hdp : e.dp = s.dp := by obtain rfl | rfl | rfl := hi <;> simpa using he.within.dp
  have hout : e.delivered = [] := by obtain rfl | rfl | rfl := hi <;> simpa using he.within.delivered
  obtain ⟨hrun, hcause, hip⟩ : e.run = s.run ∧ e.faultCause = s.faultCause ∧ e.faultIp = s.faultIp := by
    obtain rfl | rfl | rfl := hi <;> simpa using he.within.record
  refine ⟨hdp, hrun, hcause, hip, by simp [Effect.apply, hout], rfl, rfl, rfl, rfl, fun hne => ?_, fun a ha => ?_,
    fun hin hnil hp a => ?_⟩
  · simp [Effect.apply, he.within.taken, hne]
  · exact storeAt_read_other _ _ ha
  · simp [Effect.apply, he.within.stored_eof (congrArg some hin) hnil hp, storeAt]

/-- Settles O22: an instruction that stores nothing has its effect within its limits. -/
theorem frameOfTheInstructionsThatStoreNothing : Obligations.FrameOfTheInstructionsThatStoreNothing := by
  intro i s t hinc hdec hinp h
  obtain ⟨e, he⟩ := exec_effect h
  obtain rfl := he.apply_eq h
  have hst : e.stored = none := by simpa [hinc, hdec, hinp] using he.within.stored
  refine ⟨fun a => by simp [Effect.apply, hst, storeAt], by simp [Effect.apply, he.within.taken, hinp], rfl, rfl, rfl,
    rfl, fun hr hl => ?_, fun ho => ?_, fun hr hl hz hnz => ?_⟩
  · show e.dp = s.dp
    simpa [hr, hl] using he.within.dp
  · have hd : e.delivered = [] := by simpa [ho] using he.within.delivered
    simp [Effect.apply, hd]
  · show e.run = s.run ∧ e.faultCause = s.faultCause ∧ e.faultIp = s.faultIp
    simpa [hr, hl, hz, hnz] using he.within.record

/-- `t` has the program and the configuration of `s`. -/
def SameConfig (s t : State) : Prop :=
  t.tapeSize = s.tapeSize ∧ t.prog = s.prog ∧ t.progLen = s.progLen ∧ t.tapePolicy = s.tapePolicy ∧
    t.eofPolicy = s.eofPolicy

/-- No effect reaches the configuration. -/
theorem step_keeps_config {r : State} (hs : SameConfig r s) (h : step s = .next t) : SameConfig r t := by
  obtain ⟨e, he⟩ := step_effect h
  exact he.apply_eq h ▸ hs

/-- Settles O37: every step keeps the configuration, so every run without a reset does. -/
theorem configurationIsConstantInARun : Obligations.ConfigurationIsConstantInARun := fun s t es hes h =>
  hostRun_keeps (P := SameConfig s) (fun _ _ => step_keeps_config) es s t hes ⟨rfl, rfl, rfl, rfl, rfl⟩ h

theorem nextInstr_inp : nextInstr s = some .inp ↔ s.run = .running ∧ s.prog[s.ip]? = some 0x2C#8 :=
  nextInstr_eq_iff rfl

/-- Settles O38: the effect of a step stores to no cell but the current one, and only `+`, `-` and `,` have one that
stores, only `>` and `<` one that moves the pointer. -/
theorem onlyTheCurrentCellChanges : Obligations.OnlyTheCurrentCellChanges := by
  intro s t h
  obtain ⟨e, he⟩ := step_effect h
  obtain rfl := he.apply_eq h
  refine ⟨fun a ha => storeAt_read_other _ _ ha, fun ht => ?_, fun hd => ?_⟩
  · have hi := he.within.stored.resolve_left fun hn => ht (by simp [Effect.apply, hn, storeAt])
    rwa [nextInstr_eq_iff rfl, nextInstr_eq_iff rfl, nextInstr_inp, ← and_or_left, ← and_or_left] at hi
  · have hi := he.within.dp.resolve_left hd
    rwa [nextInstr_eq_iff rfl, nextInstr_eq_iff rfl, ← and_or_left] at hi

/-- Settles O40: a step takes one byte at `,` and none elsewhere. -/
theorem whatAStepConsumes : Obligations.WhatAStepConsumes := by
  intro s t h
  obtain ⟨e, he⟩ := step_effect h
  obtain rfl := he.apply_eq h
  have htaken := he.within.taken
  simp only [nextInstr_inp] at htaken
  refine ⟨fun hr hb => ?_, fun hn => ?_⟩
  · simp [Effect.apply, htaken, hr, hb]
  · simp only [Effect.apply, htaken, if_neg hn, List.drop_zero]

/-! ## What a step cannot learn -/

/-- Settles O41: the effect does not depend on OUTPUT. -/
theorem outputIsUnreadable : Obligations.OutputIsUnreadable := by
  intro s t o h
  obtain ⟨e, he⟩ := step_effect h
  obtain rfl := he.apply_eq h
  exact ⟨e.delivered, rfl, he.answers s.input o s.tape rfl fun _ => rfl⟩

/-- Settles O42: the effect depends on INPUT at `,` alone, and there on its first byte alone. -/
theorem onlyInLearnsTheInput : Obligations.OnlyInLearnsTheInput := by
  intro s t h
  obtain ⟨e, he⟩ := step_effect h
  obtain rfl := he.apply_eq h
  have htaken := he.within.taken
  simp only [nextInstr_inp] at htaken
  refine ⟨fun hn bs => ?_, fun hr hb b rest hin bs => ?_⟩
  · rw [if_neg hn] at htaken
    refine (he.answers bs s.output s.tape rfl fun hi => absurd (nextInstr_inp.1 hi) hn).trans ?_
    simp [Effect.apply, State.withSurroundings, htaken]
  · rw [if_pos ⟨hr, hb⟩] at htaken
    refine (he.answers (b :: bs) s.output s.tape rfl fun _ => by simp [hin]).trans ?_
    simp [Effect.apply, State.withSurroundings, htaken]

/-- Settles O43: the effect depends on the current cell alone. -/
theorem otherCellsDoNotMatter : Obligations.OtherCellsDoNotMatter := by
  intro s t m hm h
  obtain ⟨e, he⟩ := step_effect h
  obtain rfl := he.apply_eq h
  exact ⟨storeAt m s.dp e.stored, he.answers s.input s.output m hm fun _ => rfl, storeAt_read_congr _ hm,
    fun a ha => storeAt_read_other m e.stored ha⟩

end Sys2Proof
end

section
/-! PROOFS. The tape port outside the tape (R55) and what a step delivers on OUT (R62). -/

namespace Sys2Proof

open Sys2Proof.Machine

variable {s t : State}

/-- With `DP` outside the tape a read of the current cell stops by name (R55, log entry 9). -/
theorem readCell_of_le (h : s.tapeSize ≤ s.dp) (k : Byte → Result) :
    readCell s k = .fault (.tapeAddressOutOfRange s.dp) :=
  if_neg (Nat.not_lt.2 h)

/-- Settles O30: each of the five instructions begins with a read of the current cell. -/
theorem accessOffTheTapeIsNamed : Obligations.AccessOffTheTapeIsNamed := by
  intro i s hi hd
  obtain rfl | rfl | rfl | rfl | rfl := hi
  · rw [exec, execInc, readCell_of_le hd]
  · rw [exec, execDec, readCell_of_le hd]
  · rw [exec, execJz, readCell_of_le hd]
  · rw [exec, execJnz, readCell_of_le hd]
  · rw [exec, execOut, readCell_of_le hd]

/-- Only `.` delivers. -/
theorem exec_output_of_ne_out {i : Instr} (hi : i ≠ .out) (h : exec i s = .next t) : t.output = s.output := by
  obtain ⟨e, he⟩ := exec_effect h
  obtain rfl := he.apply_eq h
  have hd : e.delivered = [] := by simpa [hi] using he.within.delivered
  simp [Effect.apply, hd]

/-- Settles O39: a stopped core delivers nothing, the halt delivers the newline, and of the instructions only `.`
delivers, the current cell. -/
theorem whatAStepDelivers : Obligations.WhatAStepDelivers := by
  intro s t h
  obtain ⟨hr, rfl⟩ | ⟨hr, -, he, rfl⟩ | ⟨hr, -, b, hb, hx⟩ := step_cases h
  · exact ⟨fun hr' => absurd hr' hr, fun hr' => absurd hr' hr, fun _ => rfl⟩
  · exact ⟨fun _ hb => by simp [he] at hb, fun _ _ => rfl, fun hn => absurd ⟨hr, .inr he⟩ hn⟩
  · have hout : decodeByte b = .out ↔ b = 0x2E#8 := decodeByte_eq_iff_eq_encodeByte rfl b
    refine ⟨fun _ hb' => ?_, fun _ he => by simp [he] at hb, fun hn => ?_⟩
    · obtain rfl : b = 0x2E#8 := Option.some.inj (hb.symm.trans hb')
      obtain ⟨-, rfl⟩ := exec_out_iff.1 hx
      rfl
    · refine exec_output_of_ne_out (fun ho => hn ⟨hr, .inl ?_⟩) hx
      rw [hb, hout.1 ho]

end Sys2Proof
end

section
/-! PROOFS. The encoding (R80 to R87): `decodeByte` and `encodeByte` are inverse between the bytes and the well-formed
instructions, and programs are their byte-wise images. -/

namespace Sys2Proof

open Sys2Proof.Machine

/-! ## One byte -/

/-- Every byte decodes to a well-formed instruction: the decoder makes a comment only of what is no opcode (R83). -/
theorem decodeByte_wellFormed (b : Byte) : (decodeByte b).wellFormed = true := by
  unfold decodeByte
  split_ifs <;> simp_all [Instr.wellFormed, isOpcode, opcodeBytes]

theorem decodeByte_encodeByte {i : Instr} (hi : i.wellFormed = true) : decodeByte (encodeByte i) = i :=
  (decodeByte_eq_iff_eq_encodeByte hi _).2 rfl

@[simp] theorem encodeByte_decodeByte (b : Byte) : encodeByte (decodeByte b) = b :=
  ((decodeByte_eq_iff_eq_encodeByte (decodeByte_wellFormed b) b).1 rfl).symm

/-- The comments are the bytes that are no opcode (R83). -/
theorem decodeByte_eq_nop_iff (b : Byte) : decodeByte b = .nop b ↔ isOpcode b = false := by
  constructor
  · intro h
    simpa [h, Instr.wellFormed] using decodeByte_wellFormed b
  · intro h
    exact decodeByte_encodeByte (i := .nop b) (by simp [Instr.wellFormed, h])

/-- The values of the eight opcodes as numbers (R82). -/
def opcodeValues : Finset Nat := (opcodeBytes.map BitVec.toNat).toFinset

theorem isOpcode_eq_false_iff (b : Byte) : isOpcode b = false ↔ b.toNat ∉ opcodeValues := by
  rw [opcodeValues, List.mem_toFinset, List.mem_map_of_injective BitVec.toNat_injective]
  simp [isOpcode]

/-- R83's ranges are what R82's eight values leave. -/
theorem notMem_opcodeValues_iff (n : Nat) : n ∉ opcodeValues ↔
    n ≤ 0x2A ∨ (0x2F ≤ n ∧ n ≤ 0x3B) ∨ n = 0x3D ∨ (0x3F ≤ n ∧ n ≤ 0x5A) ∨ n = 0x5C ∨ 0x5E ≤ n := by
  simp only [opcodeValues, opcodeBytes, List.mem_toFinset, List.map_cons, List.map_nil, List.mem_cons, List.not_mem_nil,
    or_false, BitVec.reduceToNat]
  omega

/-- R83's count: 256 byte values less the eight opcodes. -/
theorem commentValues_length :
    ((List.range 256).filter fun n => decodeByte (BitVec.ofNat 8 n) == .nop (BitVec.ofNat 8 n)).length = 248 := by
  have h : ∀ n ∈ List.range 256,
      (decodeByte (BitVec.ofNat 8 n) == .nop (BitVec.ofNat 8 n)) = decide (n ∉ opcodeValues) := fun n hn => by
    rw [Bool.eq_iff_iff, beq_iff_eq, decide_eq_true_iff, decodeByte_eq_nop_iff, isOpcode_eq_false_iff,
      BitVec.toNat_ofNat, Nat.mod_eq_of_lt (List.mem_range.1 hn)]
  calc
    _ = ((List.range 256).filter fun n => decide (n ∉ opcodeValues)).length := by rw [List.filter_congr h]
    _ = (Finset.range 256 \ opcodeValues).card := by rw [Finset.sdiff_eq_filter]; rfl
    _ = 256 - opcodeValues.card := by rw [Finset.card_sdiff_of_subset (by decide), Finset.card_range]
    _ = 248 := rfl

/-! ## Programs -/

theorem decodeProgram_eq_map (bs : List Byte) : decodeProgram bs = bs.map decodeByte := by
  induction bs with
  | nil => rfl
  | cons b bs ih => rw [decodeProgram, ih, List.map_cons]

theorem encodeProgram_eq_map (is : List Instr) : encodeProgram is = is.map encodeByte := by
  induction is with
  | nil => rfl
  | cons i is ih => rw [encodeProgram, ih, encode, List.singleton_append, List.map_cons]

/-! ## The statements -/

/-- Settles O4: both codings are maps, and their byte-wise functions are inverse on well-formed instructions. -/
theorem programTextAndInstructionsCorrespond : Obligations.ProgramTextAndInstructionsCorrespond := by
  refine ⟨fun is his => ?_, fun bs => ⟨?_, fun i hi => ?_⟩, fun bs p => ?_⟩
  · rw [encodeProgram_eq_map, decodeProgram_eq_map, List.map_map]
    exact (List.map_congr_left fun i hi => decodeByte_encodeByte (his i hi)).trans is.map_id
  · simp [encodeProgram_eq_map, decodeProgram_eq_map, Function.comp_def]
  · rw [decodeProgram_eq_map] at hi
    obtain ⟨b, -, rfl⟩ := List.mem_map.1 hi
    exact decodeByte_wellFormed b
  · rw [decodeProgram_eq_map, List.getElem?_map]

/-- Settles O1: ten fixed bytes, each looked up in the opcode map. -/
theorem opcodeBytesDecode : Obligations.OpcodeBytesDecode := by
  unfold Obligations.OpcodeBytesDecode
  decide

/-- Settles O2: a comment's byte is no opcode, and the ranges are what the opcodes leave. -/
theorem everyOtherByteIsAComment : Obligations.EveryOtherByteIsAComment := by
  refine ⟨fun b => ?_, commentValues_length, fun b s => rfl, fun b rest => ⟨decodeByte b, rfl⟩⟩
  rw [decodeByte_eq_nop_iff, isOpcode_eq_false_iff, notMem_opcodeValues_iff]

/-- Settles O3: the decoder takes exactly the one byte that the encoder writes. -/
theorem decodeReadsBackEncode : Obligations.DecodeReadsBackEncode := by
  intro i hi rest
  rw [encode, List.singleton_append, decode, decodeByte_encodeByte hi]

end Sys2Proof
end

section
/-! PROOFS. The resolver's answer is R142's counted match: the scan stops where the nesting depth returns to the bracket's
own, and over a stretch of the program the depth is the difference of the two counts. -/

namespace Sys2Proof

open Sys2Proof.Machine

variable {prog : List Byte} {p q : Nat}

/-- A stretch holds one more `]` than `[` exactly where a forward scan's counter, 1 at its start, is 0. -/
theorem one_more_close_iff {lo hi : Nat} (h : lo ≤ hi) (hh : hi ≤ prog.length) :
    countIn prog 0x5D#8 lo hi = countIn prog 0x5B#8 lo hi + 1 ↔
      1 + nestingDepth prog hi - nestingDepth prog lo = 0 := by
  have := countIn_eq_depth prog h hh
  omega

/-- A stretch holds one more `[` than `]` exactly where a backward scan's counter, -1 at its start, is 0. -/
theorem one_more_open_iff {lo hi : Nat} (h : lo ≤ hi) (hh : hi ≤ prog.length) :
    countIn prog 0x5B#8 lo hi = countIn prog 0x5D#8 lo hi + 1 ↔
      -1 + nestingDepth prog hi - nestingDepth prog lo = 0 := by
  have := countIn_eq_depth prog h hh
  omega

theorem resolve_eq_some_iff_forwardMatch (ho : prog[p]? = some 0x5B#8) :
    resolve prog p = some q ↔ ForwardMatch prog p q := by
  obtain ⟨hp, -⟩ := List.getElem?_eq_some_iff.1 ho
  rw [resolve_of_open ho, scan_up_spec prog _ p 1 hp (Nat.le_add_right _ _)]
  refine and_congr_right fun hpq => and_congr_right fun hq => and_congr ?_ (forall_congr' fun r => ?_)
  · exact (one_more_close_iff (by omega) hq).symm
  · rw [forall_comm]
    refine forall₂_congr fun hr hpr => not_congr ?_
    exact (one_more_close_iff (by omega) (by omega)).symm

theorem resolve_eq_some_iff_backwardMatch (hc : prog[p]? = some 0x5D#8) :
    resolve prog p = some q ↔ BackwardMatch prog p q := by
  obtain ⟨hp, -⟩ := List.getElem?_eq_some_iff.1 hc
  rw [resolve_of_close hc, scan_down_spec prog _ p (-1) hp hp, BackwardMatch, and_iff_right hp]
  refine and_congr_right fun hqp => and_congr ?_ (forall_congr' fun r => ?_)
  · exact (one_more_open_iff hqp.le hp.le).symm
  · rw [forall_comm]
    refine forall₂_congr fun hr _ => not_congr ?_
    exact (one_more_open_iff hr.le hp.le).symm

end Sys2Proof
end

section
/-! PROOFS. Dispatch (R100 to R107): which instruction a step runs, where `IP` goes after it, the halt at the sentinel, the
core that is stopped, and the runs of comments. -/

namespace Sys2Proof

open Sys2Proof.Machine

variable {s t : State}

/-! ## Where an instruction leads -/

/-- `i` is a bracket that jumps on the current cell: a `[` on zero, a `]` on nonzero (R145, R146). -/
def JumpTaken (i : Instr) (s : State) : Prop :=
  i = .jz ∧ s.tape.read s.dp = 0#8 ∨ i = .jnz ∧ s.tape.read s.dp ≠ 0#8

/-- R104: an instruction advances `IP`, goes past the match of a bracket that jumps, or faults. Only a fault changes
`RUN`. -/
theorem exec_cases {i : Instr} (h : exec i s = .next t) :
    (¬JumpTaken i s ∧ t.run = s.run ∧ t.ip = s.ip + 1) ∨
    (JumpTaken i s ∧ ∃ q, resolve s.prog s.ip = some q ∧ t = s.setIp (q + 1)) ∨
    ∃ f, t = raiseFault f s.ip s := by
  cases i with
  | inc =>
    obtain ⟨-, rfl⟩ := exec_inc_iff.1 h
    exact .inl ⟨by simp [JumpTaken], rfl, rfl⟩
  | dec =>
    obtain ⟨-, rfl⟩ := exec_dec_iff.1 h
    exact .inl ⟨by simp [JumpTaken], rfl, rfl⟩
  | right =>
    obtain ⟨-, rfl⟩ | ⟨-, -, rfl⟩ | ⟨-, -, rfl⟩ := exec_right_iff.1 h
    · exact .inl ⟨by simp [JumpTaken], rfl, rfl⟩
    · exact .inl ⟨by simp [JumpTaken], rfl, rfl⟩
    · exact .inr (.inr ⟨_, rfl⟩)
  | left =>
    obtain ⟨-, rfl⟩ | ⟨-, -, rfl⟩ | ⟨-, -, rfl⟩ := exec_left_iff.1 h
    · exact .inl ⟨by simp [JumpTaken], rfl, rfl⟩
    · exact .inl ⟨by simp [JumpTaken], rfl, rfl⟩
    · exact .inr (.inr ⟨_, rfl⟩)
  | jz =>
    obtain ⟨-, ⟨hz, rfl⟩ | ⟨hz, hj | ⟨-, rfl⟩⟩⟩ := exec_jz_iff.1 h
    · exact .inl ⟨by simp [JumpTaken, hz], rfl, rfl⟩
    · exact .inr (.inl ⟨.inl ⟨rfl, hz⟩, hj⟩)
    · exact .inr (.inr ⟨_, rfl⟩)
  | jnz =>
    obtain ⟨-, ⟨hz, rfl⟩ | ⟨hz, hj | ⟨-, rfl⟩⟩⟩ := exec_jnz_iff.1 h
    · exact .inl ⟨by simp [JumpTaken, hz], rfl, rfl⟩
    · exact .inr (.inl ⟨.inr ⟨rfl, hz⟩, hj⟩)
    · exact .inr (.inr ⟨_, rfl⟩)
  | out =>
    obtain ⟨-, rfl⟩ := exec_out_iff.1 h
    exact .inl ⟨by simp [JumpTaken], rfl, rfl⟩
  | inp =>
    obtain ⟨_, _, -, -, rfl⟩ | ⟨-, -, -, rfl⟩ | ⟨-, -, rfl⟩ := exec_inp_iff.1 h
    all_goals exact .inl ⟨by simp [JumpTaken], rfl, rfl⟩
  | nop b =>
    obtain rfl := exec_nop_iff.1 h
    exact .inl ⟨by simp [JumpTaken], rfl, rfl⟩

/-- What an instruction does to `RUN`: nothing, unless it faults. -/
theorem exec_run_cases {i : Instr} (h : exec i s = .next t) : t.run = s.run ∨ ∃ f, t = raiseFault f s.ip s := by
  obtain ⟨-, hrun, -⟩ | ⟨-, q, -, rfl⟩ | hf := exec_cases h
  · exact .inl hrun
  · exact .inl rfl
  · exact .inr hf

/-- No instruction halts a Running core (R102: only the sentinel does). -/
theorem exec_run_ne_halted {i : Instr} (hr : s.run = .running) (h : exec i s = .next t) : t.run ≠ .halted := by
  obtain hrun | ⟨f, rfl⟩ := exec_run_cases h
  · simp [hrun, hr]
  · simp [raiseFault_eq]

/-- An instruction that faults a Running core delivers nothing (R222). -/
theorem exec_output_of_faulted {i : Instr} (hr : s.run = .running) (h : exec i s = .next t) (ht : t.run = .faulted) :
    t.output = s.output := by
  obtain hrun | ⟨f, rfl⟩ := exec_run_cases h
  · simp [hrun, hr] at ht
  · rfl

/-! ## The sentinel -/

theorem pendingTransfer_of_end (hr : s.run = .running) (he : s.ip = s.progLen) :
    pendingTransfer s = some .output := by
  simp [pendingTransfer, hr, fetch_endMark_iff.2 he]

/-- Settles O9: at the sentinel the step is the halt, for which the core waits on OUT; elsewhere a step that ends Faulted
is one of a core that was so already, or of an instruction that faulted. -/
theorem stepAtTheSentinelHalts : Obligations.StepAtTheSentinelHalts := by
  refine ⟨fun s hr hn he => ⟨step_of_end hr hn he, ?_⟩, fun s t h ht => ?_⟩
  · simp [hostEvent, pendingTransfer_of_end hr he]
  · obtain ⟨-, rfl⟩ | ⟨-, -, -, rfl⟩ | ⟨hr, -, b, -, hx⟩ := step_cases h
    · rfl
    · simp [halt_eq] at ht
    · exact exec_output_of_faulted hr hx ht

/-- Settles O35: Halted is entered by the halt alone, which delivers the newline. -/
theorem haltingLeavesTheNewlineLast : Obligations.HaltingLeavesTheNewlineLast := by
  intro s t _ hs h
  obtain ⟨hr, rfl⟩ | ⟨-, -, he, rfl⟩ | ⟨hr, -, b, hb, hx⟩ := step_cases h
  · exact ⟨hs, fun hr' => absurd hr' hr⟩
  · exact ⟨fun _ => by simp [halt_eq, newline], fun _ => by simp [halt_eq, he]⟩
  · have hne := exec_run_ne_halted hr hx
    obtain ⟨hip, -⟩ := List.getElem?_eq_some_iff.1 hb
    exact ⟨fun ht => absurd ht hne, fun _ => iff_of_false hne (Nat.ne_of_lt hip)⟩

/-! ## A stopped core -/

theorem hostEvent_of_stopped {e : HostEvent} (hr : s.run ≠ .running) (he : ∀ g, e ≠ .reset g) :
    hostEvent e s = .next s := by
  cases e with
  | serve => exact step_of_stopped hr
  | stall => simp [hostEvent, step_of_stopped hr]
  | reset g => exact absurd rfl (he g)

/-- Settles O11, by induction on the events. -/
theorem onlyResetLeavesAStoppedCore : Obligations.OnlyResetLeavesAStoppedCore := by
  intro s es hr hes
  induction es with
  | nil => rfl
  | cons e es ih =>
    have hrest := ih fun e' he' => hes e' (List.mem_cons_of_mem _ he')
    exact hostRun_cons_iff.2 ⟨s, hostEvent_of_stopped hr (hes e List.mem_cons_self), hrest⟩

/-! ## Comments -/

theorem decodeByte_of_notMem_opcodeBytes {b : Byte} (hb : b ∉ opcodeBytes) : decodeByte b = .nop b :=
  (decodeByte_eq_nop_iff b).2 (by simpa [isOpcode] using hb)

/-- A step at a comment only advances `IP` (R105). -/
theorem step_of_comment {b : Byte} (hr : s.run = .running) (hn : 0 < s.tapeSize) (hb : s.prog[s.ip]? = some b)
    (hc : decodeByte b = .nop b) : step s = .next (s.setIp (s.ip + 1)) := by
  rw [step_of_byte hr hn hb, hc]
  rfl

/-- A Running core in a program of comments, served, passes the `k` positions before the sentinel and halts there. -/
theorem hostRun_serve_of_comments (hr : s.run = .running) (hn : 0 < s.tapeSize)
    (hc : ∀ b ∈ s.prog, decodeByte b = .nop b) (k : Nat) (hk : s.ip + k = s.progLen) :
    hostRun (List.replicate (k + 1) .serve) s = .next (halt (s.setIp s.progLen)) := by
  induction k generalizing s with
  | zero =>
    have hhalt : hostEvent .serve s = .next (halt (s.setIp s.progLen)) := by
      rw [← hk]
      exact step_of_end hr hn hk
    exact hostRun_cons_iff.2 ⟨_, hhalt, rfl⟩
  | succ k ih =>
    have hip : s.ip < s.progLen := by omega
    have hstep := step_of_comment hr hn (List.getElem?_eq_getElem hip) (hc _ (List.getElem_mem hip))
    have hrest := ih (s := s.setIp (s.ip + 1)) hr hn hc ((Nat.succ_add_eq_add_succ s.ip k).trans hk)
    exact hostRun_cons_iff.2 ⟨_, hstep, hrest⟩

/-- Settles O20: the run of a program of comments starts `L` positions before its sentinel. -/
theorem commentOnlyAdvances : Obligations.CommentOnlyAdvances := by
  refine ⟨fun b hb => decodeByte_of_notMem_opcodeBytes hb, fun b s => rfl, fun h hn hc => ?_⟩
  exact hostRun_serve_of_comments (s := State.ofSetup h) rfl hn hc h.prog.length (Nat.zero_add _)

/-! ## The next position -/

/-- At a byte of its program, the jump of the instruction is the jump of one of the two brackets' bytes. -/
theorem jumpTaken_decodeByte_iff {b : Byte} (hb : s.prog[s.ip]? = some b) : JumpTaken (decodeByte b) s ↔
    (s.prog[s.ip]? = some 0x5B#8 ∧ s.tape.read s.dp = 0#8) ∨
    (s.prog[s.ip]? = some 0x5D#8 ∧ s.tape.read s.dp ≠ 0#8) := by
  rw [JumpTaken, decodeByte_eq_iff_eq_encodeByte rfl, decodeByte_eq_iff_eq_encodeByte rfl, hb, Option.some.injEq,
    Option.some.injEq, encodeByte, encodeByte]

/-- Settles O36: of the three things an instruction can do, the fault leaves Running, and a jump is taken just at the two
brackets, past the position that the resolver finds. -/
theorem whereTheInstructionPointerGoes : Obligations.WhereTheInstructionPointerGoes := by
  intro s t _ hr h ht
  obtain ⟨hr', -⟩ | ⟨-, -, -, rfl⟩ | ⟨-, -, b, hb, hx⟩ := step_cases h
  · exact absurd hr hr'
  · simp [halt_eq] at ht
  · have hjump := jumpTaken_decodeByte_iff hb
    obtain ⟨hnot, -, hip⟩ | ⟨hj, q, hq, rfl⟩ | ⟨f, rfl⟩ := exec_cases hx
    · rw [hjump] at hnot
      exact ⟨fun ho hz => absurd (.inl ⟨ho, hz⟩) hnot, fun hc hz => absurd (.inr ⟨hc, hz⟩) hnot, fun _ _ => hip⟩
    · refine ⟨fun ho _ => ?_, fun hc _ => ?_, fun ho hc => absurd (hjump.1 hj) (not_or.2 ⟨ho, hc⟩)⟩
      · exact ⟨q, (resolve_eq_some_iff_forwardMatch ho).1 hq, rfl⟩
      · exact ⟨q, (resolve_eq_some_iff_backwardMatch hc).1 hq, rfl⟩
    · simp [raiseFault_eq] at ht

/-! ## Which instruction a step runs -/

/-- The decoder reads the first byte and leaves the rest (R80, R86). -/
theorem decode_eq_ok_iff {bs rest : List Byte} {i : Instr} :
    decode bs = .ok (i, rest) ↔ ∃ b, bs = b :: rest ∧ decodeByte b = i := by
  cases bs with
  | nil => simp [decode]
  | cons b bs =>
    simp only [decode, Except.ok.injEq, Prod.mk.injEq, List.cons.injEq]
    constructor
    · rintro ⟨hi, rfl⟩
      exact ⟨b, ⟨rfl, rfl⟩, hi⟩
    · rintro ⟨_, ⟨rfl, rfl⟩, hi⟩
      exact ⟨hi, rfl⟩

/-- Settles O8: the first byte from `IP` on is the one that the step fetches. -/
theorem stepRunsTheDecodedInstruction : Obligations.StepRunsTheDecodedInstruction := by
  refine ⟨fun s i rest hr hn h => ?_, fun s hr hn he => step_of_end hr hn he, rfl, rfl, rfl, rfl, rfl, rfl, rfl, rfl,
    fun b hb => decodeByte_of_notMem_opcodeBytes ?_⟩
  · obtain ⟨b, hdrop, rfl⟩ := decode_eq_ok_iff.1 h
    refine step_of_byte hr hn ?_
    rw [← List.head?_drop, hdrop, List.head?_cons]
  · simp only [opcodeBytes, List.mem_cons, not_or] at hb ⊢
    tauto

theorem decodeTableWord_eq (nbits w : Nat) : decodeTableWord nbits w = some (decodeByte (tableByte nbits w)) := rfl

/-- Placing a byte at `p` keeps every other byte of the program. -/
theorem getElem?_placeByte_of_ne {prog : List Byte} {p r : Nat} (b : Byte) (hr : r ≠ p) (hlt : r < prog.length) :
    (placeByte prog p b)[r]? = prog[r]? := by
  obtain hp | hp := Nat.lt_or_ge p prog.length
  · have hset : placeByte prog p b = prog.set p b := by
      simp [placeByte, List.set_eq_take_append_cons_drop, hp, Nat.sub_eq_zero_of_le hp.le]
    rw [hset, List.getElem?_set_ne hr.symm]
  · rw [placeByte, List.take_of_length_le hp, List.append_assoc, List.getElem?_append_left hlt]

/-- Settles O10: the fetch at `IP` reads the byte placed there, and the other positions keep theirs. -/
theorem placedWordRunsNext : Obligations.PlacedWordRunsNext := by
  intro s nbits w i hn hi
  obtain rfl : decodeByte (tableByte nbits w) = i := Option.some.inj ((decodeTableWord_eq nbits w).symm.trans hi)
  refine ⟨?_, fun p hp hlt => getElem?_placeByte_of_ne _ hp hlt⟩
  exact step_of_byte (s := s.withFetchWord nbits w) rfl hn (fetch_byte_iff.1 (fetch_placeByte _ _ _))

end Sys2Proof
end

section
/-! PROOFS. Cell arithmetic (R120 to R123): what one `+` or `-` adds to the current cell, and what a sequence of them adds,
executed in a row or served from the program. -/

namespace Sys2Proof

open Sys2Proof.Machine

variable {s : State}

/-! ## A cell that has been added to -/

/-- `m'` is `m` with `d` added modulo 256 to the cell at `a` (R122), read by read; no other cell differs. -/
structure AddsAt (m : Memory) (a : Nat) (d : Int) (m' : Memory) : Prop where
  cell : ((m'.read a).toNat : Int) = ((m.read a).toNat + d) % 256
  others : ∀ b, b ≠ a → m'.read b = m.read b

theorem AddsAt.zero (m : Memory) (a : Nat) : AddsAt m a 0 m where
  cell := by omega
  others := fun _ _ => rfl

theorem AddsAt.add {m m' m'' : Memory} {a : Nat} {d e : Int} (h : AddsAt m a d m') (h' : AddsAt m' a e m'') :
    AddsAt m a (d + e) m'' where
  cell := by
    rw [h'.cell, h.cell]
    omega
  others := fun b hb => (h'.others b hb).trans (h.others b hb)

theorem AddsAt.of_write {m : Memory} {a : Nat} {d : Int} {v : Byte}
    (hv : (v.toNat : Int) = ((m.read a).toNat + d) % 256) : AddsAt m a d (m.write a v) where
  cell := by rwa [Memory.read_write_same]
  others := fun _ hb => Memory.read_write_other m v hb

/-- Adding 0 in all leaves every cell as it was: a byte is its own remainder. -/
theorem AddsAt.read_eq {m m' : Memory} {a : Nat} (h : AddsAt m a 0 m') (b : Nat) : m'.read b = m.read b := by
  obtain rfl | hb := eq_or_ne b a
  · have hcell := h.cell
    exact BitVec.eq_of_toNat_eq (by omega)
  · exact h.others b hb

/-- The cell's new value when what is added is a number of `+`. -/
theorem AddsAt.toNat_read {m m' : Memory} {a k : Nat} (h : AddsAt m a k m') :
    (m'.read a).toNat = ((m.read a).toNat + k) % 256 := by
  exact_mod_cast h.cell

/-! ## The two instructions -/

/-- What `+` and `-` add to the current cell (R120, R121); the other instructions add nothing. -/
def cellChange : Instr → Int
  | .inc => 1
  | .dec => -1
  | .right | .left | .jz | .jnz | .out | .inp | .nop _ => 0

/-- `i` is `+` or `-`. -/
def IsCellArithmetic (i : Instr) : Prop := i = .inc ∨ i = .dec

/-- With `DP` on the tape, `+` and `-` add their change to the current cell and advance `IP`; nothing else changes. -/
theorem exec_of_cellArithmetic {i : Instr} (hi : IsCellArithmetic i) (hd : s.dp < s.tapeSize) :
    ∃ m, exec i s = .next ((s.setTape m).setIp (s.ip + 1)) ∧ AddsAt s.tape s.dp (cellChange i) m := by
  obtain rfl | rfl := hi
  · refine ⟨_, exec_inc_iff.2 ⟨hd, rfl⟩, .of_write ?_⟩
    rw [incByte_toNat, cellChange]
    omega
  · refine ⟨_, exec_dec_iff.2 ⟨hd, rfl⟩, .of_write ?_⟩
    rw [decByte_toNat, cellChange]
    omega

/-- Settles O12: `+` adds 1 at the current address. -/
theorem incrementWrapsInTheCurrentCell : Obligations.IncrementWrapsInTheCurrentCell := by
  refine ⟨rfl, fun s hd => ?_⟩
  obtain ⟨m, hx, hm⟩ := exec_of_cellArithmetic (.inl rfl) hd
  exact ⟨_, hx, rfl, hm.toNat_read (k := 1), hm.others⟩

/-- Settles O13: `-` adds -1 at the current address. -/
theorem decrementWrapsInTheCurrentCell : Obligations.DecrementWrapsInTheCurrentCell := by
  refine ⟨rfl, fun s hd => ?_⟩
  obtain ⟨m, hx, hm⟩ := exec_of_cellArithmetic (.inr rfl) hd
  exact ⟨_, hx, rfl, hm.cell, hm.others⟩

/-! ## Sequences of them -/

theorem execSeq_cons_of_next {i : Instr} {is : List Instr} {t : State} (hr : s.run = .running)
    (hx : exec i s = .next t) : execSeq (i :: is) s = execSeq is t := by
  simp [execSeq, hr, hx]

/-- `+` and `-` in a row add the sum of their changes to the current cell. -/
theorem execSeq_of_cellArithmetic (is : List Instr) (his : ∀ i ∈ is, IsCellArithmetic i) (hr : s.run = .running)
    (hd : s.dp < s.tapeSize) :
    ∃ m, execSeq is s = .next ((s.setTape m).setIp (s.ip + is.length)) ∧
      AddsAt s.tape s.dp (is.map cellChange).sum m := by
  induction is generalizing s with
  | nil => exact ⟨s.tape, rfl, .zero _ _⟩
  | cons i is ih =>
    obtain ⟨hi, hrest⟩ := List.forall_mem_cons.1 his
    obtain ⟨m, hx, hm⟩ := exec_of_cellArithmetic hi hd
    obtain ⟨m', hxs, hm'⟩ := ih hrest (s := (s.setTape m).setIp (s.ip + 1)) hr hd
    refine ⟨m', ?_, hm.add hm'⟩
    rw [execSeq_cons_of_next hr hx, hxs, List.length_cons, Nat.add_comm is.length, ← Nat.add_assoc]
    rfl

/-- A run of one of the two. -/
theorem execSeq_replicate_of_cellArithmetic {i : Instr} (hi : IsCellArithmetic i) (k : Nat) (hr : s.run = .running)
    (hd : s.dp < s.tapeSize) :
    ∃ m, execSeq (List.replicate k i) s = .next ((s.setTape m).setIp (s.ip + k)) ∧
      AddsAt s.tape s.dp (k * cellChange i) m := by
  have hall : ∀ j ∈ List.replicate k i, IsCellArithmetic j := List.forall_mem_replicate.2 (.inr hi)
  simpa using execSeq_of_cellArithmetic (List.replicate k i) hall hr hd

/-- A Running core with only `+` and `-` between `IP` and the sentinel, served, executes them in order and halts. -/
theorem hostRun_serve_of_cellArithmetic (is : List Instr) (his : ∀ i ∈ is, IsCellArithmetic i)
    (hr : s.run = .running) (hd : s.dp < s.tapeSize) (hip : s.ip ≤ s.progLen)
    (hp : (s.prog.drop s.ip).map decodeByte = is) :
    ∃ m, hostRun (List.replicate (is.length + 1) .serve) s = .next (halt ((s.setTape m).setIp s.progLen)) ∧
      AddsAt s.tape s.dp (is.map cellChange).sum m := by
  have hn : 0 < s.tapeSize := Nat.zero_lt_of_lt hd
  induction is generalizing s with
  | nil =>
    have hend : s.ip = s.progLen := hip.antisymm (List.drop_eq_nil_iff.1 (List.map_eq_nil_iff.1 hp))
    have hhalt : hostEvent .serve s = .next (halt ((s.setTape s.tape).setIp s.progLen)) := by
      rw [← hend]
      exact step_of_end hr hn hend
    exact ⟨s.tape, hostRun_cons_iff.2 ⟨_, hhalt, rfl⟩, .zero _ _⟩
  | cons i is ih =>
    obtain ⟨hi, hrest⟩ := List.forall_mem_cons.1 his
    obtain ⟨b, bs, hdrop, rfl, hbs⟩ := List.map_eq_cons_iff.1 hp
    have hb : s.prog[s.ip]? = some b := by rw [← List.head?_drop, hdrop, List.head?_cons]
    have htail : s.prog.drop (s.ip + 1) = bs := by rw [← List.tail_drop, hdrop, List.tail_cons]
    obtain ⟨m, hx, hm⟩ := exec_of_cellArithmetic hi hd
    obtain ⟨m', hxs, hm'⟩ := ih hrest (s := (s.setTape m).setIp (s.ip + 1)) hr hd
      (List.getElem?_eq_some_iff.1 hb).1 (htail ▸ hbs) hn
    exact ⟨m', hostRun_cons_iff.2 ⟨_, (step_of_byte hr hn hb).trans hx, hxs⟩, hm.add hm'⟩

/-- R123's law: the launched program of `k` times `+`, served, halts with `k` added to cell 0. -/
theorem hostRun_serve_of_incs {h : HostSetup} {k : Nat} (hn : 0 < h.tapeSize) (hp : h.prog = List.replicate k 0x2B#8) :
    ∃ m, hostRun (List.replicate (k + 1) .serve) (State.ofSetup h) =
        .next (halt (((State.ofSetup h).setTape m).setIp k)) ∧ AddsAt [] 0 k m := by
  have hall : ∀ i ∈ List.replicate k Instr.inc, IsCellArithmetic i := List.forall_mem_replicate.2 (.inr (.inl rfl))
  have hdec : h.prog.map decodeByte = List.replicate k .inc := by
    rw [hp, List.map_replicate]
    rfl
  have hrun := hostRun_serve_of_cellArithmetic (s := State.ofSetup h) _ hall rfl hn (Nat.zero_le _) hdec
  have hlen : (State.ofSetup h).progLen = k := (congrArg List.length hp).trans List.length_replicate
  have hsum : ((List.replicate k Instr.inc).map cellChange).sum = k := by simp [cellChange]
  rwa [List.length_replicate, hlen, hsum] at hrun

/-- Settles O45: what is added in all is `k`, `-k` or, for one of each, 0, which no cell shows. The program of `k` times
`+` decodes to that many of them, and its tape starts with every cell 0. -/
theorem runsOfCellArithmetic : Obligations.RunsOfCellArithmetic := by
  refine ⟨fun s k hr hd => ⟨?_, ?_, ?_, ?_⟩, fun h k hn hp => ?_⟩
  · obtain ⟨m, hx, hm⟩ := execSeq_replicate_of_cellArithmetic (.inl rfl) k hr hd
    rw [cellChange, mul_one] at hm
    exact ⟨_, hx, rfl, hm.toNat_read, hm.others⟩
  · obtain ⟨m, hx, hm⟩ := execSeq_replicate_of_cellArithmetic (.inr rfl) k hr hd
    rw [cellChange, mul_neg_one] at hm
    exact ⟨_, hx, rfl, hm.cell, hm.others⟩
  · obtain ⟨m, hx, hm⟩ := execSeq_of_cellArithmetic [.inc, .dec] (by simp [IsCellArithmetic]) hr hd
    exact ⟨_, hx, hm.read_eq⟩
  · obtain ⟨m, hx, hm⟩ := execSeq_of_cellArithmetic [.dec, .inc] (by simp [IsCellArithmetic]) hr hd
    exact ⟨_, hx, hm.read_eq⟩
  · obtain ⟨m, hx, hm⟩ := hostRun_serve_of_incs hn hp
    have hcell : (m.read 0).toNat = k % 256 := by simpa using hm.toNat_read
    exact ⟨_, hx, rfl, hcell, hm.others⟩

end Sys2Proof
end

section
/-! PROOFS. Pointer moves (R130 to R133): what one `>` or `<` does, a run of `>` on the tape's ring and past its end, and
that the two undo each other. -/

namespace Sys2Proof

open Sys2Proof.Machine

variable {s t : State}

/-! ## One move -/

/-- `i` is a move past the tape's end under the `fault` policy (R132). -/
def MoveRefused (i : Instr) (s : State) : Prop :=
  s.tapePolicy = .fault ∧ (i = .right ∧ s.tapeSize ≤ s.dp + 1 ∨ i = .left ∧ s.dp = 0)

/-- A refused move faults at the instruction itself. -/
theorem exec_of_moveRefused {i : Instr} (h : MoveRefused i s) :
    exec i s = .next (raiseFault .tapeBoundsError s.ip s) := by
  obtain ⟨hp, ⟨rfl, hd⟩ | ⟨rfl, hd⟩⟩ := h
  · exact exec_right_iff.2 (.inr (.inr ⟨hd, hp, rfl⟩))
  · exact exec_left_iff.2 (.inr (.inr ⟨hd, hp, rfl⟩))

/-- A `>` that is not refused goes one cell up on the ring of `N` cells; under `fault` it never passes the ring's seam. -/
theorem exec_right_eq_mod (hd : s.dp < s.tapeSize) (ho : s.tapePolicy = .wrap ∨ s.dp + 1 < s.tapeSize) :
    exec .right s = .next ((s.setDp ((s.dp + 1) % s.tapeSize)).setIp (s.ip + 1)) := by
  obtain hlt | hge := lt_or_ge (s.dp + 1) s.tapeSize
  · rw [Nat.mod_eq_of_lt hlt]
    exact exec_right_iff.2 (.inl ⟨hlt, rfl⟩)
  · have hlast : s.dp + 1 = s.tapeSize := hge.antisymm' hd
    rw [hlast, Nat.mod_self]
    exact exec_right_iff.2 (.inr (.inl ⟨hge, ho.resolve_right hge.not_gt, rfl⟩))

/-- Settles O14: the three outcomes of `>`, `DP` at the last cell being the one with no cell after it. -/
theorem rightMovesOrWrapsOrFaults : Obligations.RightMovesOrWrapsOrFaults := by
  refine ⟨rfl, fun s hd => ⟨fun hlt => ?_, fun hlast hp => ?_, fun hlast hp => ?_⟩⟩
  · exact exec_right_iff.2 (.inl ⟨by omega, rfl⟩)
  · exact exec_right_iff.2 (.inr (.inl ⟨by omega, hp, rfl⟩))
  · exact exec_of_moveRefused ⟨hp, .inl ⟨rfl, by omega⟩⟩

/-- Settles O15: the three outcomes of `<`. -/
theorem leftMovesOrWrapsOrFaults : Obligations.LeftMovesOrWrapsOrFaults := by
  refine ⟨rfl, fun s _ => ⟨fun hpos => ?_, fun hzero hp => ?_, fun hzero hp => ?_⟩⟩
  · exact exec_left_iff.2 (.inl ⟨hpos, rfl⟩)
  · exact exec_left_iff.2 (.inr (.inl ⟨hzero, hp, rfl⟩))
  · exact exec_of_moveRefused ⟨hp, .inr ⟨rfl, hzero⟩⟩

/-! ## Instructions in a row -/

/-- A stopped core executes none of the instructions (R100). -/
theorem execSeq_of_stopped (is : List Instr) (hr : s.run ≠ .running) : execSeq is s = .next s := by
  cases is with
  | nil => rfl
  | cons i is => cases h : s.run <;> simp_all [execSeq]

theorem execSeq_cons_iff {i : Instr} {is : List Instr} (hr : s.run = .running) :
    execSeq (i :: is) s = .next t ↔ ∃ u, exec i s = .next u ∧ execSeq is u = .next t := by
  cases h : exec i s <;> simp [execSeq, hr, h]

/-- A sequence goes on from the state that its first part ends in, stopped or not. -/
theorem execSeq_append_of_next {is : List Instr} (js : List Instr) (h : execSeq is s = .next t) :
    execSeq (is ++ js) s = execSeq js t := by
  induction is generalizing s with
  | nil =>
    obtain rfl := Host.Outcome.next.inj h
    rfl
  | cons i is ih =>
    by_cases hr : s.run = .running
    · obtain ⟨u, hx, hxs⟩ := (execSeq_cons_iff hr).1 h
      exact (execSeq_cons_of_next hr hx).trans (ih hxs)
    · obtain rfl := Host.Outcome.next.inj ((execSeq_of_stopped _ hr).symm.trans h)
      rw [execSeq_of_stopped _ hr, execSeq_of_stopped _ hr]

/-- After a refused move nothing of the sequence is executed. -/
theorem execSeq_cons_of_moveRefused {i : Instr} {is : List Instr} (hr : s.run = .running) (h : MoveRefused i s) :
    execSeq (i :: is) s = .next (raiseFault .tapeBoundsError s.ip s) := by
  rw [execSeq_cons_of_next hr (exec_of_moveRefused h)]
  exact execSeq_of_stopped is (by simp [raiseFault_eq])

/-! ## Runs of `>`, and a move and its opposite -/

/-- `k` times `>`, none of them refused, goes `k` cells up on the ring. -/
theorem execSeq_rights (k : Nat) (hr : s.run = .running) (hd : s.dp < s.tapeSize)
    (ho : s.tapePolicy = .wrap ∨ s.dp + k < s.tapeSize) :
    execSeq (List.replicate k .right) s = .next ((s.setDp ((s.dp + k) % s.tapeSize)).setIp (s.ip + k)) := by
  induction k generalizing s with
  | zero =>
    rw [Nat.add_zero, Nat.mod_eq_of_lt hd]
    rfl
  | succ k ih =>
    have hone : s.tapePolicy = .wrap ∨ s.dp + 1 < s.tapeSize := ho.imp_right (by omega)
    have hrest : s.tapePolicy = .wrap ∨ (s.dp + 1) % s.tapeSize + k < s.tapeSize :=
      ho.imp_right fun hk => by
        rw [Nat.mod_eq_of_lt (by omega)]
        omega
    have hruns := ih (s := (s.setDp ((s.dp + 1) % s.tapeSize)).setIp (s.ip + 1)) hr
      (Nat.mod_lt _ (Nat.zero_lt_of_lt hd)) hrest
    simp only [State.setIp_dp, State.setDp_dp, State.setIp_tapeSize, State.setDp_tapeSize, State.setIp_ip,
      Nat.mod_add_mod, Nat.add_assoc, Nat.add_comm 1 k] at hruns
    exact (execSeq_cons_of_next hr (exec_right_eq_mod hd hone)).trans hruns

/-- Under `fault` a run of `>` that leads off the tape reaches the last cell, and the next `>` faults there. -/
theorem execSeq_rights_off_tape {k : Nat} (hr : s.run = .running) (hd : s.dp < s.tapeSize)
    (hp : s.tapePolicy = .fault) (hk : s.tapeSize ≤ s.dp + k) :
    execSeq (List.replicate k .right) s = .next (raiseFault .tapeBoundsError (s.ip + (s.tapeSize - s.dp - 1))
      ((s.setDp (s.tapeSize - 1)).setIp (s.ip + (s.tapeSize - s.dp - 1)))) := by
  obtain ⟨rest, hsplit⟩ : ∃ rest, k = s.tapeSize - s.dp - 1 + (rest + 1) :=
    ⟨k - (s.tapeSize - s.dp), by omega⟩
  have hlast : s.dp + (s.tapeSize - s.dp - 1) = s.tapeSize - 1 := by omega
  have hreach := execSeq_rights (s.tapeSize - s.dp - 1) hr hd (.inr (by omega))
  rw [hlast, Nat.mod_eq_of_lt (by omega)] at hreach
  rw [hsplit, List.replicate_add, execSeq_append_of_next _ hreach, List.replicate_succ]
  exact execSeq_cons_of_moveRefused hr ⟨hp, .inl ⟨rfl, Nat.le_add_of_sub_le le_rfl⟩⟩

/-- Two instructions of which the second sets `DP` back. -/
theorem execSeq_pair_of_dp_back {i j : Instr} {d : Nat} (hr : s.run = .running)
    (hi : exec i s = .next ((s.setDp d).setIp (s.ip + 1)))
    (hj : exec j ((s.setDp d).setIp (s.ip + 1)) = .next ((s.setDp s.dp).setIp (s.ip + 2))) :
    execSeq [i, j] s = .next (s.setIp (s.ip + 2)) :=
  (execSeq_cons_of_next hr hi).trans (execSeq_cons_of_next hr hj)

theorem execSeq_right_left (hr : s.run = .running) (hd : s.dp < s.tapeSize)
    (ho : s.tapePolicy = .wrap ∨ s.dp + 1 < s.tapeSize) :
    execSeq [.right, .left] s = .next (s.setIp (s.ip + 2)) := by
  obtain hlt | hge := lt_or_ge (s.dp + 1) s.tapeSize
  · exact execSeq_pair_of_dp_back hr (exec_right_iff.2 (.inl ⟨hlt, rfl⟩))
      (exec_left_iff.2 (.inl ⟨Nat.le_add_left 1 s.dp, rfl⟩))
  · have hp : s.tapePolicy = .wrap := ho.resolve_right hge.not_gt
    have hback : s.dp = s.tapeSize - 1 := by omega
    exact execSeq_pair_of_dp_back hr (exec_right_iff.2 (.inr (.inl ⟨hge, hp, rfl⟩)))
      (exec_left_iff.2 (.inr (.inl ⟨rfl, hp, congrArg (fun d => (s.setDp d).setIp (s.ip + 2)) hback⟩)))

theorem execSeq_left_right (hr : s.run = .running) (hd : s.dp < s.tapeSize)
    (ho : s.tapePolicy = .wrap ∨ 1 ≤ s.dp) :
    execSeq [.left, .right] s = .next (s.setIp (s.ip + 2)) := by
  obtain hzero | hpos := Nat.eq_zero_or_pos s.dp
  · have hp : s.tapePolicy = .wrap := ho.resolve_right (by omega)
    have hseam : s.tapeSize ≤ s.tapeSize - 1 + 1 := by omega
    exact execSeq_pair_of_dp_back hr (exec_left_iff.2 (.inr (.inl ⟨hzero, hp, rfl⟩)))
      (exec_right_iff.2 (.inr (.inl ⟨hseam, hp, congrArg (fun d => (s.setDp d).setIp (s.ip + 2)) hzero⟩)))
  · have hback : s.dp = s.dp - 1 + 1 := by omega
    exact execSeq_pair_of_dp_back hr (exec_left_iff.2 (.inl ⟨hpos, rfl⟩))
      (exec_right_iff.2 (.inl ⟨hback.symm.trans_lt hd, congrArg (fun d => (s.setDp d).setIp (s.ip + 2)) hback⟩))

/-- Settles O46: a run that stays on the tape is its run on the ring; one that does not is cut at the last cell. -/
theorem runsOfPointerMoves : Obligations.RunsOfPointerMoves := by
  intro s k hr hd
  refine ⟨fun hp => execSeq_rights k hr hd (.inl hp), fun _ hk => ?_, fun hp hk => execSeq_rights_off_tape hr hd hp hk,
    execSeq_right_left hr hd, execSeq_left_right hr hd⟩
  rw [execSeq_rights k hr hd (.inr hk), Nat.mod_eq_of_lt hk]
  rfl

end Sys2Proof
end

section
/-! PROOFS. The fault record (R132, R144, R220): the two ways in which an instruction writes it, and that each is what the
counted match, or the tape's end, calls for. -/

namespace Sys2Proof

open Sys2Proof.Machine

variable {s t : State}

/-- What an instruction does to the record: nothing, unless it is a bracket that jumps and has no match, or a refused
move. -/
theorem exec_record_cases {i : Instr} (h : exec i s = .next t) :
    t.faultCause = s.faultCause ∨
    (JumpTaken i s ∧ resolve s.prog s.ip = none ∧ t = raiseFault .malformedProgram s.ip s) ∨
    (MoveRefused i s ∧ t = raiseFault .tapeBoundsError s.ip s) := by
  obtain ⟨e, he⟩ := exec_effect h
  obtain ⟨-, hcause, -⟩ | hi | hi | hi | hi | hi := he.within.record
  · rw [he.apply_eq h]
    exact .inl hcause
  · cases hi
  · obtain rfl := Option.some.inj hi
    obtain ⟨-, rfl⟩ | ⟨-, -, rfl⟩ | ⟨hd, hp, rfl⟩ := exec_right_iff.1 h
    · exact .inl rfl
    · exact .inl rfl
    · exact .inr (.inr ⟨⟨hp, .inl ⟨rfl, hd⟩⟩, rfl⟩)
  · obtain rfl := Option.some.inj hi
    obtain ⟨-, rfl⟩ | ⟨-, -, rfl⟩ | ⟨hd, hp, rfl⟩ := exec_left_iff.1 h
    · exact .inl rfl
    · exact .inl rfl
    · exact .inr (.inr ⟨⟨hp, .inr ⟨rfl, hd⟩⟩, rfl⟩)
  · obtain rfl := Option.some.inj hi
    obtain ⟨-, ⟨-, rfl⟩ | ⟨hz, ⟨q, -, rfl⟩ | ⟨hq, rfl⟩⟩⟩ := exec_jz_iff.1 h
    · exact .inl rfl
    · exact .inl rfl
    · exact .inr (.inl ⟨.inl ⟨rfl, hz⟩, hq, rfl⟩)
  · obtain rfl := Option.some.inj hi
    obtain ⟨-, ⟨-, rfl⟩ | ⟨hz, ⟨q, -, rfl⟩ | ⟨hq, rfl⟩⟩⟩ := exec_jnz_iff.1 h
    · exact .inl rfl
    · exact .inl rfl
    · exact .inr (.inl ⟨.inr ⟨rfl, hz⟩, hq, rfl⟩)

/-- R144 with R142's match: MalformedProgram is right where the instruction jumps and the resolver finds nothing. -/
theorem malformedHere_iff {b : Byte} (hb : s.prog[s.ip]? = some b) :
    malformedHere s ↔ JumpTaken (decodeByte b) s ∧ resolve s.prog s.ip = none := by
  rw [jumpTaken_decodeByte_iff hb, malformedHere, or_and_right, and_assoc, and_assoc]
  refine or_congr (and_congr_right fun ho => ?_) (and_congr_right fun hc => ?_)
  · simp only [← resolve_eq_some_iff_forwardMatch ho, Option.eq_none_iff_forall_ne_some, ne_eq]
  · simp only [← resolve_eq_some_iff_backwardMatch hc, Option.eq_none_iff_forall_ne_some, ne_eq]

/-- With `DP` on the tape, TapeBoundsError is right where the instruction is a refused move (R132). -/
theorem offTapeHere_iff {b : Byte} (hb : s.prog[s.ip]? = some b) (hd : s.dp < s.tapeSize) :
    offTapeHere s ↔ MoveRefused (decodeByte b) s := by
  have hlast : s.dp + 1 = s.tapeSize ↔ s.tapeSize ≤ s.dp + 1 := by omega
  rw [offTapeHere, MoveRefused, decodeByte_eq_iff_eq_encodeByte rfl, decodeByte_eq_iff_eq_encodeByte rfl, hb,
    Option.some.injEq, Option.some.injEq, encodeByte, encodeByte, hlast]

theorem FaultJustified.of_faultCause_none (h : s.faultCause = .none) : FaultJustified s :=
  ⟨fun hc => absurd (h.symm.trans hc) FaultCause.noConfusion, fun hc => absurd (h.symm.trans hc) FaultCause.noConfusion⟩

/-- A fault keeps all that its justification speaks of: the program, `IP`, `DP`, the tape and the policy. -/
theorem FaultJustified.malformedProgram (h : malformedHere s) (p : Nat) :
    FaultJustified (raiseFault .malformedProgram p s) :=
  ⟨fun _ => h, FaultCause.noConfusion⟩

theorem FaultJustified.tapeBoundsError (h : offTapeHere s) (p : Nat) :
    FaultJustified (raiseFault .tapeBoundsError p s) :=
  ⟨FaultCause.noConfusion, fun _ => h⟩

/-- Settles O34: a Running core has no cause in its record, so the record after a step is empty, or the one an instruction
wrote where it had to. -/
theorem faultRecordStaysJustified : Obligations.FaultRecordStaysJustified := by
  intro s t hs hj h
  obtain ⟨-, rfl⟩ | ⟨hr, -, -, rfl⟩ | ⟨hr, -, b, hb, hx⟩ := step_cases h
  · exact hj
  · exact .of_faultCause_none (hs.running hr)
  · obtain hcause | ⟨hjump, hnone, rfl⟩ | ⟨hmove, rfl⟩ := exec_record_cases hx
    · exact .of_faultCause_none (hcause.trans (hs.running hr))
    · exact .malformedProgram ((malformedHere_iff hb).2 ⟨hjump, hnone⟩) s.ip
    · exact .tapeBoundsError ((offTapeHere_iff hb hs.dp_lt).2 hmove) s.ip

end Sys2Proof
end

section
/-! PROOFS. Paired brackets (R140 to R149): the two scans find the same pairs, so that resolving goes back and forth
between the brackets of a pair; and what `[` and `]` do with the answer. -/

namespace Sys2Proof

open Sys2Proof.Machine

variable {prog : List Byte} {p q : Nat}

/-! ## The nesting depth at one position -/

theorem nestingDepth_succ_of_open (ho : prog[p]? = some 0x5B#8) :
    nestingDepth prog (p + 1) = nestingDepth prog p + 1 := by
  rw [nestingDepth_succ, List.getD_eq_getElem?_getD, ho, Option.getD_some, bracketWeight_open]

theorem nestingDepth_succ_of_close (hc : prog[p]? = some 0x5D#8) :
    nestingDepth prog (p + 1) = nestingDepth prog p - 1 := by
  rw [nestingDepth_succ, List.getD_eq_getElem?_getD, hc, Option.getD_some, bracketWeight_close, sub_eq_add_neg]

/-- One position changes the depth by one at most; it rises only at a `[` and falls only at a `]` (R141). -/
theorem nestingDepth_succ_cases (hp : p < prog.length) :
    (prog[p]? = some 0x5B#8 ∧ nestingDepth prog (p + 1) = nestingDepth prog p + 1) ∨
    (prog[p]? = some 0x5D#8 ∧ nestingDepth prog (p + 1) = nestingDepth prog p - 1) ∨
    nestingDepth prog (p + 1) = nestingDepth prog p := by
  obtain ⟨hb, -⟩ | ⟨hb, -⟩ | ⟨-, -, hw⟩ := bracketWeight_cases prog[p]
  · have ho : prog[p]? = some 0x5B#8 := by rw [List.getElem?_eq_getElem hp, hb]
    exact .inl ⟨ho, nestingDepth_succ_of_open ho⟩
  · have hc : prog[p]? = some 0x5D#8 := by rw [List.getElem?_eq_getElem hp, hb]
    exact .inr (.inl ⟨hc, nestingDepth_succ_of_close hc⟩)
  · rw [nestingDepth_succ, List.getD_eq_getElem _ _ hp, hw, add_zero]
    exact .inr (.inr rfl)

/-- Over a stretch of the program the depth changes by the stretch's length at most. -/
theorem abs_nestingDepth_sub_le {lo hi : Nat} (h : lo ≤ hi) (hh : hi ≤ prog.length) :
    |nestingDepth prog hi - nestingDepth prog lo| ≤ hi - lo := by
  rw [abs_le]
  induction hi, h using Nat.le_induction with
  | base => simp
  | succ hi h ih =>
    have hrest := ih (by omega)
    obtain ⟨-, hd⟩ | ⟨-, hd⟩ | hd := nestingDepth_succ_cases (prog := prog) (p := hi) hh
    all_goals omega

/-! ## Pairs -/

/-- The pair of a `[` at `p` and a `]` at `q`, said with no scan and so with no direction: between them the nesting is
deeper than before `p`, and after `q` it is as deep again. -/
structure Paired (prog : List Byte) (p q : Nat) : Prop where
  lt : p < q
  lt_length : q < prog.length
  depth_eq : nestingDepth prog (q + 1) = nestingDepth prog p
  deeper : ∀ r, p < r → r ≤ q → nestingDepth prog p < nestingDepth prog r

theorem Paired.open_at (h : Paired prog p q) : prog[p]? = some 0x5B#8 := by
  have hdeeper := h.deeper (p + 1) (Nat.lt_succ_self p) h.lt
  obtain ⟨ho, -⟩ | ⟨-, hd⟩ | hd := nestingDepth_succ_cases (h.lt.trans h.lt_length)
  · exact ho
  · omega
  · omega

theorem Paired.close_at (h : Paired prog p q) : prog[q]? = some 0x5D#8 := by
  have hdeeper := h.deeper q h.lt le_rfl
  have heq := h.depth_eq
  obtain ⟨-, hd⟩ | ⟨hc, -⟩ | hd := nestingDepth_succ_cases h.lt_length
  · omega
  · exact hc
  · omega

/-- The forward scan stops at the pair's `]`. -/
theorem Paired.resolve_open (h : Paired prog p q) : resolve prog p = some q := by
  have hd := nestingDepth_succ_of_open h.open_at
  have heq := h.depth_eq
  rw [resolve_of_open h.open_at, scan_up_spec prog _ p 1 (h.lt.trans h.lt_length) (Nat.le_add_right _ _)]
  refine ⟨h.lt, h.lt_length, by omega, fun r hpr hrq => ?_⟩
  have hdeeper := h.deeper (r + 1) (by omega) hrq
  omega

/-- The backward scan stops at the pair's `[`. -/
theorem Paired.resolve_close (h : Paired prog p q) : resolve prog q = some p := by
  have hd := nestingDepth_succ_of_close h.close_at
  have heq := h.depth_eq
  rw [resolve_of_close h.close_at, scan_down_spec prog _ q (-1) h.lt_length h.lt_length]
  refine ⟨h.lt, by omega, fun r hpr hrq => ?_⟩
  have hdeeper := h.deeper r hpr hrq.le
  omega

/-! ## What a scan passes -/

/-- Up to where the scan from a `[` ends, with a match or without one, the nesting stays deeper than before the `[`: a
position where it first comes back to that depth makes a pair, which the scan does not pass. -/
theorem nestingDepth_lt_of_passed_up (ho : prog[p]? = some 0x5B#8) {r : Nat} (hpr : p < r) (hr : r ≤ prog.length)
    (hend : ∀ q, resolve prog p = some q → r ≤ q) : nestingDepth prog p < nestingDepth prog r := by
  obtain ⟨n, rfl⟩ : ∃ n, r = n + 1 := ⟨r - 1, by omega⟩
  obtain rfl | hpn := Nat.eq_or_lt_of_le (Nat.le_of_lt_succ hpr)
  · rw [nestingDepth_succ_of_open ho]
    exact lt_add_one _
  · have hdeeper : ∀ m, p < m → m ≤ n → nestingDepth prog p < nestingDepth prog m := fun m hpm hmn =>
      nestingDepth_lt_of_passed_up ho hpm (hmn.trans (Nat.le_of_succ_le hr)) fun q hq =>
        hmn.trans (Nat.le_of_succ_le (hend q hq))
    have hback : nestingDepth prog (n + 1) ≠ nestingDepth prog p := fun heq =>
      Nat.not_succ_le_self n (hend n (Paired.resolve_open ⟨hpn, hr, heq, hdeeper⟩))
    have hn := hdeeper n hpn le_rfl
    obtain ⟨-, hd⟩ | ⟨-, hd⟩ | hd := nestingDepth_succ_cases (prog := prog) (p := n) hr
    all_goals omega
termination_by r

/-- The mirror image: down to where the scan from a `]` ends, the nesting stays deeper than after the `]`. -/
theorem nestingDepth_lt_of_passed_down (hc : prog[q]? = some 0x5D#8) {r : Nat} (hrq : r ≤ q)
    (hend : ∀ p, resolve prog q = some p → p < r) : nestingDepth prog (q + 1) < nestingDepth prog r := by
  obtain ⟨hq, -⟩ := List.getElem?_eq_some_iff.1 hc
  obtain rfl | hlt := Nat.eq_or_lt_of_le hrq
  · rw [nestingDepth_succ_of_close hc]
    exact sub_one_lt _
  · have hdeeper : ∀ m, r < m → m ≤ q → nestingDepth prog (q + 1) < nestingDepth prog m := fun m hrm hmq =>
      nestingDepth_lt_of_passed_down hc hmq fun p hp => (hend p hp).trans hrm
    have hback : nestingDepth prog (q + 1) ≠ nestingDepth prog r := fun heq =>
      Nat.lt_irrefl r (hend r (Paired.resolve_close ⟨hlt, hq, heq, fun m hrm hmq => heq ▸ hdeeper m hrm hmq⟩))
    have hr := hdeeper (r + 1) (Nat.lt_succ_self r) hlt
    obtain ⟨-, hd⟩ | ⟨-, hd⟩ | hd := nestingDepth_succ_cases (hlt.trans hq)
    all_goals omega
termination_by q - r

theorem paired_of_resolve_open (ho : prog[p]? = some 0x5B#8) (h : resolve prog p = some q) : Paired prog p q := by
  obtain ⟨hp, -⟩ := List.getElem?_eq_some_iff.1 ho
  obtain ⟨hpq, hq, hzero, -⟩ :=
    (scan_up_spec prog _ p 1 hp (Nat.le_add_right _ _) q).1 ((resolve_of_open ho).symm.trans h)
  have hd := nestingDepth_succ_of_open ho
  exact ⟨hpq, hq, by omega, fun r hpr hrq => nestingDepth_lt_of_passed_up ho hpr (hrq.trans hq.le) fun q' hq' =>
    hrq.trans (Option.some.inj (h.symm.trans hq')).le⟩

theorem paired_of_resolve_close (hc : prog[q]? = some 0x5D#8) (h : resolve prog q = some p) : Paired prog p q := by
  obtain ⟨hq, -⟩ := List.getElem?_eq_some_iff.1 hc
  obtain ⟨hpq, hzero, -⟩ := (scan_down_spec prog _ q (-1) hq hq p).1 ((resolve_of_close hc).symm.trans h)
  have hd := nestingDepth_succ_of_close hc
  have heq : nestingDepth prog (q + 1) = nestingDepth prog p := by omega
  exact ⟨hpq, hq, heq, fun r hpr hrq => heq ▸ nestingDepth_lt_of_passed_down hc hrq fun p' hp' =>
    (Option.some.inj (hp'.symm.trans h)).trans_lt hpr⟩

/-- Resolving a bracket answers the other one of its pair (R149). -/
theorem resolve_eq_some_iff_paired : resolve prog p = some q ↔ Paired prog p q ∨ Paired prog q p := by
  constructor
  · intro h
    obtain ⟨-, ho | hc⟩ := resolve_some h
    · exact .inl (paired_of_resolve_open ho h)
    · exact .inr (paired_of_resolve_close hc h)
  · rintro (h | h)
    · exact h.resolve_open
    · exact h.resolve_close

/-! ## The Bracket Resolver's statements -/

/-- Settles O23: the scan's result is the counted match, and the two are a pair. -/
theorem resolverFindsTheCountedMatch : Obligations.ResolverFindsTheCountedMatch := by
  refine fun prog p => ⟨fun ho => ⟨fun q => resolve_eq_some_iff_forwardMatch ho, fun q h => ?_⟩,
    fun hc => ⟨fun q => resolve_eq_some_iff_backwardMatch hc, fun q h => ?_⟩⟩
  · have hpair := paired_of_resolve_open ho h
    exact ⟨hpair.lt, hpair.close_at⟩
  · have hpair := paired_of_resolve_close hc h
    exact ⟨hpair.lt, hpair.open_at⟩

/-- Settles O24: neither scan starts. -/
theorem resolverRefusesANonBracket : Obligations.ResolverRefusesANonBracket := by
  intro prog p ho hc
  rw [resolve, if_neg ho, if_neg hc]

/-- Settles O25: being paired has no direction. -/
theorem resolverRoundTrip : Obligations.ResolverRoundTrip := fun _ _ _ h =>
  ⟨resolve_eq_some_iff_paired.2 (resolve_eq_some_iff_paired.1 h).symm,
    fun ho => (paired_of_resolve_open ho h).close_at, fun hc => (paired_of_resolve_close hc h).open_at⟩

/-- `D` copies of `[` and then `D` of `]` (vector S5). -/
def nestedProgram (D : Nat) : List Byte := List.replicate D 0x5B#8 ++ List.replicate D 0x5D#8

theorem nestedProgram_length (D : Nat) : (nestedProgram D).length = 2 * D := by
  simp [nestedProgram, two_mul]

theorem nestedProgram_open {D n : Nat} (h : n < D) : (nestedProgram D)[n]? = some 0x5B#8 := by
  rw [nestedProgram, List.getElem?_append_left (by simpa using h), List.getElem?_replicate_of_lt h]

theorem nestedProgram_close {D n : Nat} (h : D ≤ n) (h' : n < 2 * D) : (nestedProgram D)[n]? = some 0x5D#8 := by
  rw [nestedProgram, List.getElem?_append_right (by simpa using h), List.length_replicate,
    List.getElem?_replicate_of_lt (by omega)]

/-- The nesting rises by one at each `[` and falls by one at each `]`. -/
theorem nestingDepth_nestedProgram {D n : Nat} (h : n ≤ 2 * D) :
    nestingDepth (nestedProgram D) n = (min n (2 * D - n) : Nat) := by
  induction n with
  | zero => simp
  | succ n ih =>
    have hn := ih (by omega)
    obtain hlt | hge := Nat.lt_or_ge n D
    · rw [nestingDepth_succ_of_open (nestedProgram_open hlt)]
      omega
    · rw [nestingDepth_succ_of_close (nestedProgram_close hge h)]
      omega

theorem paired_nestedProgram {D k : Nat} (h : k < D) : Paired (nestedProgram D) k (2 * D - 1 - k) where
  lt := by omega
  lt_length := by
    rw [nestedProgram_length]
    omega
  depth_eq := by
    rw [nestingDepth_nestedProgram (by omega), nestingDepth_nestedProgram (by omega)]
    omega
  deeper := fun r hkr hr => by
    rw [nestingDepth_nestedProgram (by omega), nestingDepth_nestedProgram (by omega)]
    omega

/-- Settles O26: the `k`-th `[` from the left and the `k`-th `]` from the right are a pair. -/
theorem nestedPairsResolveAtEveryDepth : Obligations.NestedPairsResolveAtEveryDepth := fun _ _ h =>
  ⟨(paired_nestedProgram h).resolve_open, (paired_nestedProgram h).resolve_close⟩

/-- Settles O27: the counter is how much deeper the nesting is than outside the bracket, and it moves by one at most at
each of at most `L` positions. -/
theorem nestingCounterStaysInRange : Obligations.NestingCounterStaysInRange := by
  refine fun prog p => ⟨fun ho r hpr hr => ?_, fun hc r hrp hend => ?_⟩
  · have hend : ∀ q, resolve prog p = some q → r + 1 ≤ q := fun q hq => by rwa [hq] at hr
    have hlen : r + 1 ≤ prog.length := by
      cases hq : resolve prog p with
      | none => rwa [hq] at hr
      | some q => exact (hend q hq).trans (resolve_some hq).1.le
    have hcount := countIn_eq_depth prog (Nat.add_le_add_right hpr 1) hlen
    have hopen := nestingDepth_succ_of_open ho
    have hdeeper := nestingDepth_lt_of_passed_up ho (Nat.lt_add_one_of_le hpr) hlen hend
    have hrise := (abs_le.1 (abs_nestingDepth_sub_le (Nat.le_add_right_of_le hpr) hlen)).2
    omega
  · obtain ⟨hlen, -⟩ := List.getElem?_eq_some_iff.1 hc
    have hcount := countIn_eq_depth prog hrp hlen.le
    have hclose := nestingDepth_succ_of_close hc
    have hdeeper := nestingDepth_lt_of_passed_down hc hrp hend
    have hfall := (abs_le.1 (abs_nestingDepth_sub_le hrp hlen.le)).1
    omega

/-! ## The two jumps -/

/-- Settles O16: the taken jump goes where the resolver says, which is the counted match. -/
theorem jumpIfZeroSkipsTheLoop : Obligations.JumpIfZeroSkipsTheLoop := by
  refine ⟨rfl, fun s hd ho => ⟨fun hz => ?_, fun hz q hq => ?_, fun hz hnone => ?_⟩⟩
  · exact exec_jz_iff.2 ⟨hd, .inl ⟨hz, rfl⟩⟩
  · have hres := (resolve_eq_some_iff_forwardMatch ho).2 hq
    exact ⟨(paired_of_resolve_open ho hres).close_at, exec_jz_iff.2 ⟨hd, .inr ⟨hz, .inl ⟨q, hres, rfl⟩⟩⟩⟩
  · have hres : resolve s.prog s.ip = none := Option.eq_none_iff_forall_ne_some.2 fun q hq =>
      hnone q ((resolve_eq_some_iff_forwardMatch ho).1 hq)
    exact exec_jz_iff.2 ⟨hd, .inr ⟨hz, .inr ⟨hres, rfl⟩⟩⟩

/-- Settles O17: as for `[`, with the test turned round and the match counted backward. -/
theorem jumpIfNonzeroRepeatsTheLoop : Obligations.JumpIfNonzeroRepeatsTheLoop := by
  refine ⟨rfl, fun s hd hc => ⟨fun hz => ?_, fun hz q hq => ?_, fun hz hnone => ?_⟩⟩
  · exact exec_jnz_iff.2 ⟨hd, .inl ⟨hz, rfl⟩⟩
  · have hres := (resolve_eq_some_iff_backwardMatch hc).2 hq
    exact ⟨(paired_of_resolve_close hc hres).open_at, exec_jnz_iff.2 ⟨hd, .inr ⟨hz, .inl ⟨q, hres, rfl⟩⟩⟩⟩
  · have hres : resolve s.prog s.ip = none := Option.eq_none_iff_forall_ne_some.2 fun q hq =>
      hnone q ((resolve_eq_some_iff_backwardMatch hc).1 hq)
    exact exec_jnz_iff.2 ⟨hd, .inr ⟨hz, .inr ⟨hres, rfl⟩⟩⟩

/-- Settles O44: the bracket jumped to stands on the same cell, on which it does not jump. -/
theorem rereadingTheBracketChangesNothing : Obligations.RereadingTheBracketChangesNothing := by
  refine fun s q hs hr => ⟨fun ho hz hq => ?_, fun hc hz hq => ?_⟩
  · have hc := (paired_of_resolve_open ho hq).close_at
    refine ⟨(step_of_byte hr hs.tapeSize_pos ho).trans ?_,
      (step_of_byte (s := s.setIp q) hr hs.tapeSize_pos hc).trans ?_⟩
    · exact exec_jz_iff.2 ⟨hs.dp_lt, .inr ⟨hz, .inl ⟨q, hq, rfl⟩⟩⟩
    · exact exec_jnz_iff.2 ⟨hs.dp_lt, .inl ⟨hz, rfl⟩⟩
  · have ho := (paired_of_resolve_close hc hq).open_at
    refine ⟨(step_of_byte hr hs.tapeSize_pos hc).trans ?_,
      (step_of_byte (s := s.setIp q) hr hs.tapeSize_pos ho).trans ?_⟩
    · exact exec_jnz_iff.2 ⟨hs.dp_lt, .inr ⟨hz, .inl ⟨q, hq, rfl⟩⟩⟩
    · exact exec_jz_iff.2 ⟨hs.dp_lt, .inl ⟨hz, rfl⟩⟩

end Sys2Proof
end

section
/-! PROOFS. Character I/O (R160 to R162): the wait at `.` and `,`, what each does once the host has served it, and the
end of input, which is final. -/

namespace Sys2Proof

open Sys2Proof.Machine

variable {s t : State}

/-! ## The wait -/

/-- A Running core waits on the channel of the instruction at `IP`. -/
theorem pendingTransfer_of_byte {b : Byte} (hr : s.run = .running) (hb : s.prog[s.ip]? = some b) :
    pendingTransfer s = instrChannel (decodeByte b) := by
  simp [pendingTransfer, hr, fetch_byte_iff.2 hb]

/-- A core that needs a transfer keeps all of its state while the host stalls (R234). -/
theorem hostEvent_stall_of_pendingTransfer {c : Channel} (h : pendingTransfer s = some c) :
    hostEvent .stall s = .next s := by
  simp [hostEvent, h]

/-! ## The end of input -/

/-- No step puts a byte into INPUT: what one leaves of an empty INPUT is empty (R61). -/
theorem step_keeps_input_nil (hs : s.input = []) (h : step s = .next t) : t.input = [] := by
  obtain ⟨htail, hkept⟩ := whatAStepConsumes s t h
  by_cases hin : s.run = .running ∧ s.prog[s.ip]? = some 0x2C#8
  · rw [htail hin.1 hin.2, hs, List.tail_nil]
  · rw [hkept hin, hs]

/-! ## The two instructions -/

/-- Settles O18: OUT reads the current cell, and `.` is an instruction with a channel. -/
theorem outDeliversTheCurrentCell : Obligations.OutDeliversTheCurrentCell := by
  refine ⟨rfl, fun s hd => exec_out_iff.2 ⟨hd, rfl⟩, fun s hr hb => ?_⟩
  exact hostEvent_stall_of_pendingTransfer (pendingTransfer_of_byte hr hb)

/-- What `,` stores in the current cell: the next byte of INPUT, and at EOF what the policy says (R161, R162). -/
def inpStored (s : State) : Option Byte :=
  match s.input, s.eofPolicy with
  | b :: _, _ => some b
  | [], .zero => some 0#8
  | [], .unchanged => none

theorem inpStored_cons {b : Byte} {rest : List Byte} (hi : s.input = b :: rest) : inpStored s = some b := by
  simp [inpStored, hi]

theorem inpStored_nil_zero (hi : s.input = []) (hp : s.eofPolicy = .zero) : inpStored s = some 0#8 := by
  simp [inpStored, hi, hp]

theorem inpStored_nil_unchanged (hi : s.input = []) (hp : s.eofPolicy = .unchanged) : inpStored s = none := by
  simp [inpStored, hi, hp]

/-- With `DP` on the tape, `,` stores what it has to store, takes what INPUT begins with and advances `IP`. -/
theorem exec_inp_of_lt (hd : s.dp < s.tapeSize) :
    exec .inp s =
      .next (((s.setInput s.input.tail).setTape (storeAt s.tape s.dp (inpStored s))).setIp (s.ip + 1)) := by
  cases hi : s.input with
  | cons b rest =>
    rw [inpStored_cons hi]
    exact exec_inp_iff.2 (.inl ⟨b, rest, hi, hd, rfl⟩)
  | nil =>
    have hkept : s.setInput [] = s := by rw [← hi]; rfl
    rw [List.tail_nil, hkept]
    cases hp : s.eofPolicy with
    | zero =>
      rw [inpStored_nil_zero hi hp]
      exact exec_inp_iff.2 (.inr (.inl ⟨hi, hp, hd, rfl⟩))
    | unchanged =>
      rw [inpStored_nil_unchanged hi hp]
      exact exec_inp_iff.2 (.inr (.inr ⟨hi, hp, rfl⟩))

/-- Settles O19: `,` is an instruction with a channel, every step keeps an empty INPUT, and the byte stored is the next
one or the policy's. -/
theorem inStoresTheNextInputByte : Obligations.InStoresTheNextInputByte := by
  refine ⟨rfl, rfl, fun s hr hb => ?_, fun s t es hes hs h => ?_, fun s hd => ?_⟩
  · exact hostEvent_stall_of_pendingTransfer (pendingTransfer_of_byte hr hb)
  · exact hostRun_keeps (P := fun u => u.input = []) (fun _ _ => step_keeps_input_nil) es s t hes hs h
  · refine ⟨_, exec_inp_of_lt hd, rfl, fun b rest hi => ?_, fun hi hp => ?_, fun hi hp => ?_, fun a ha => ?_⟩
    · simp [inpStored_cons hi, storeAt]
    · simp [inpStored_nil_zero hi hp, storeAt]
    · simp [inpStored_nil_unchanged hi hp, storeAt]
    · exact storeAt_read_other _ _ ha

end Sys2Proof
end

section
/-! PROOFS. Exceptions (R220 to R234): the refused launch, the fault that changes nothing but the record and `RUN`, the
exact conditions of the two faults, the two waits, and the exit status. -/

namespace Sys2Proof

open Sys2Proof.Machine

variable {s t : State}

/-! ## A configuration with no cells -/

/-- Reset does not launch a core with no cells (R228). -/
theorem hostEvent_reset_of_noCells {h : HostSetup} (hn : h.tapeSize = 0) :
    hostEvent (.reset h) s = .refused .zeroTapeSize :=
  if_pos hn

/-- A step of a core with no cells is refused, whatever stands at `IP` (log entry 7). -/
theorem step_of_noCells (hn : s.tapeSize = 0) (hr : s.run = .running) : step s = .refused .zeroTapeSize := by
  simp [step, hr, stepRunning, hn]

/-- Settles O6: both the reset and the step test `N` before anything else. -/
theorem zeroTapeSizeNeverLaunches : Obligations.ZeroTapeSizeNeverLaunches :=
  ⟨fun _ _ hn => hostEvent_reset_of_noCells hn, fun _ hn hr => step_of_noCells hn hr⟩

/-! ## A fault is precise and final -/

theorem Machine.CoreFault.cause_cases (f : CoreFault) : f.cause = .malformedProgram ∨ f.cause = .tapeBoundsError := by
  cases f with
  | malformedProgram => exact .inl rfl
  | tapeBoundsError => exact .inr rfl

/-- Settles O28: only a fault takes a Running core to Faulted, and the core that raised it is a stopped one. -/
theorem faultsArePreciseAndTerminal : Obligations.FaultsArePreciseAndTerminal := by
  intro i s t hr h ht
  obtain hrun | ⟨f, rfl⟩ := exec_run_cases h
  · rw [hrun, hr] at ht
    cases ht
  · refine ⟨f.cause_cases, rfl, fun k => onlyResetLeavesAStoppedCore _ _ (by simp [ht]) fun e he => ?_⟩
    rw [List.eq_of_mem_replicate he]
    exact nofun

/-! ## Where the two faults are raised -/

/-- R220's table: where each of the two faults is the right outcome. -/
def FaultHere : CoreFault → State → Prop
  | .malformedProgram => malformedHere
  | .tapeBoundsError => offTapeHere

theorem exists_faultHere_iff : (∃ f, FaultHere f s) ↔ malformedHere s ∨ offTapeHere s := by
  constructor
  · rintro ⟨_ | _, hf⟩
    · exact .inl hf
    · exact .inr hf
  · rintro (hf | hf)
    · exact ⟨.malformedProgram, hf⟩
    · exact ⟨.tapeBoundsError, hf⟩

/-- Where the table says so, the step raises the fault. -/
theorem step_of_faultHere {f : CoreFault} (hs : MachineInv s) (hr : s.run = .running) (hf : FaultHere f s) :
    step s = .next (raiseFault f s.ip s) := by
  cases f with
  | malformedProgram =>
    obtain ⟨ho, hz, hnone⟩ | ⟨hc, hz, hnone⟩ := hf
    · obtain ⟨-, -, hfault⟩ := jumpIfZeroSkipsTheLoop.2 s hs.dp_lt ho
      exact (step_of_byte hr hs.tapeSize_pos ho).trans (hfault hz hnone)
    · obtain ⟨-, -, hfault⟩ := jumpIfNonzeroRepeatsTheLoop.2 s hs.dp_lt hc
      exact (step_of_byte hr hs.tapeSize_pos hc).trans (hfault hz hnone)
  | tapeBoundsError =>
    obtain ⟨hp, ⟨hb, hd⟩ | ⟨hb, hd⟩⟩ := hf
    · exact (step_of_byte hr hs.tapeSize_pos hb).trans (exec_of_moveRefused ⟨hp, .inl ⟨rfl, hd.ge⟩⟩)
    · exact (step_of_byte hr hs.tapeSize_pos hb).trans (exec_of_moveRefused ⟨hp, .inr ⟨rfl, hd⟩⟩)

/-- A fault that a step raises is justified in the state before it, which differs in the record and `RUN` alone. -/
theorem faultHere_of_step {f : CoreFault} (hs : MachineInv s) (hr : s.run = .running)
    (h : step s = .next (raiseFault f s.ip s)) : FaultHere f s := by
  obtain ⟨hmalformed, hoff⟩ := faultRecordStaysJustified s _ hs (.of_faultCause_none (hs.running hr)) h
  cases f with
  | malformedProgram => exact hmalformed rfl
  | tapeBoundsError => exact hoff rfl

/-- A Running core enters Faulted only by a fault at `IP`. -/
theorem step_run_cases (hr : s.run = .running) (h : step s = .next t) :
    t.run ≠ .faulted ∨ ∃ f, t = raiseFault f s.ip s := by
  obtain ⟨hr', -⟩ | ⟨-, -, -, rfl⟩ | ⟨-, -, b, -, hx⟩ := step_cases h
  · exact absurd hr hr'
  · exact .inl (by simp [halt_eq])
  · exact (exec_run_cases hx).imp_left fun hrun => by simp [hrun, hr]

/-- A Running core is Faulted after a step exactly where the table has a fault for it. -/
theorem step_faulted_iff (hs : MachineInv s) (hr : s.run = .running) (h : step s = .next t) :
    t.run = .faulted ↔ ∃ f, FaultHere f s := by
  constructor
  · intro ht
    obtain hne | ⟨f, rfl⟩ := step_run_cases hr h
    · exact absurd ht hne
    · exact ⟨f, faultHere_of_step hs hr h⟩
  · rintro ⟨f, hf⟩
    obtain rfl := Host.Outcome.next.inj (h.symm.trans (step_of_faultHere hs hr hf))
    rfl

theorem Machine.CoreFault.cause_ne_none (f : CoreFault) : f.cause ≠ .none := by
  cases f with
  | malformedProgram => exact nofun
  | tapeBoundsError => exact nofun

theorem Machine.CoreFault.cause_injective : Function.Injective CoreFault.cause := by
  rintro (_ | _) (_ | _) h
  · rfl
  · cases h
  · cases h
  · rfl

/-- The cause in the record after a Running core's step is a fault's exactly where the table has that fault. -/
theorem step_faultCause_iff {f : CoreFault} (hs : MachineInv s) (hr : s.run = .running) (h : step s = .next t) :
    t.faultCause = f.cause ↔ FaultHere f s := by
  constructor
  · intro hc
    obtain hne | ⟨g, rfl⟩ := step_run_cases hr h
    · have hnone := (stepKeepsTheInvariants s t hs h).faultCause_none hne
      exact absurd (hc.symm.trans hnone) f.cause_ne_none
    · obtain rfl : g = f := CoreFault.cause_injective hc
      exact faultHere_of_step hs hr h
  · intro hf
    obtain rfl := Host.Outcome.next.inj (h.symm.trans (step_of_faultHere hs hr hf))
    rfl

/-- Settles O29: the record after the step and the table agree on each fault; code 3 is no cause's. -/
theorem exactlyTwoFaults : Obligations.ExactlyTwoFaults := by
  refine ⟨fun s t hs hr h => ⟨step_faultCause_iff (f := .malformedProgram) hs hr h,
    step_faultCause_iff (f := .tapeBoundsError) hs hr h, (step_faulted_iff hs hr h).trans exists_faultHere_iff,
    fun ht => ?_⟩, rfl, rfl, rfl, fun c => by cases c <;> decide⟩
  obtain hne | ⟨f, rfl⟩ := step_run_cases hr h
  · exact absurd ht hne
  · rfl

/-! ## The two waits -/

theorem instrChannel_eq_input_iff {i : Instr} : instrChannel i = some .input ↔ i = .inp := by
  cases i <;> simp [instrChannel]

theorem instrChannel_eq_output_iff {i : Instr} : instrChannel i = some .output ↔ i = .out := by
  cases i <;> simp [instrChannel]

/-- Except at the sentinel, the core waits on the channel of the instruction that its next step executes. -/
theorem pendingTransfer_of_not_end (h : ¬(s.run = .running ∧ s.ip = s.progLen)) :
    pendingTransfer s = (nextInstr s).bind instrChannel := by
  by_cases hr : s.run = .running
  · cases hb : s.prog[s.ip]? with
    | some b => rw [pendingTransfer_of_byte hr hb, nextInstr_of_byte hr hb, Option.bind_some]
    | none =>
      have hout : s.progLen < s.ip :=
        lt_of_le_of_ne (List.getElem?_eq_none_iff.1 hb) fun he => h ⟨hr, he.symm⟩
      simp [pendingTransfer, nextInstr, hr, hb, fetch_outside_iff.2 hout]
  · rw [nextInstr_of_stopped hr, Option.bind_none]
    cases hrun : s.run with
    | running => exact absurd hrun hr
    | halted => simp [pendingTransfer, hrun]
    | faulted => simp [pendingTransfer, hrun]

/-- What the core can wait on: the channel of an instruction, or OUT for the newline. -/
theorem pendingTransfer_eq_some_iff {c : Channel} : pendingTransfer s = some c ↔
    (∃ i, nextInstr s = some i ∧ instrChannel i = some c) ∨
      (s.run = .running ∧ s.ip = s.progLen ∧ c = .output) := by
  by_cases he : s.run = .running ∧ s.ip = s.progLen
  · rw [pendingTransfer_of_end he.1 he.2, nextInstr_of_end he.2]
    simp [he, eq_comm]
  · rw [pendingTransfer_of_not_end he, Option.bind_eq_some_iff]
    exact (or_iff_left fun ⟨hr, hend, _⟩ => he ⟨hr, hend⟩).symm

/-- The core waits on IN at `,` alone (R234). -/
theorem pendingTransfer_eq_input_iff :
    pendingTransfer s = some .input ↔ s.run = .running ∧ s.prog[s.ip]? = some 0x2C#8 := by
  simp [pendingTransfer_eq_some_iff, instrChannel_eq_input_iff, nextInstr_inp]

/-- The core waits on OUT at `.` and at the sentinel alone (R234). -/
theorem pendingTransfer_eq_output_iff :
    pendingTransfer s = some .output ↔ s.run = .running ∧ (s.prog[s.ip]? = some 0x2E#8 ∨ s.ip = s.progLen) := by
  have hout : nextInstr s = some .out ↔ s.run = .running ∧ s.prog[s.ip]? = some 0x2E#8 := nextInstr_eq_iff rfl
  simp [pendingTransfer_eq_some_iff, instrChannel_eq_output_iff, hout, and_or_left]

/-- Only a Running core waits. -/
theorem run_of_pendingTransfer {c : Channel} (h : pendingTransfer s = some c) : s.run = .running := by
  cases c with
  | input => exact (pendingTransfer_eq_input_iff.1 h).1
  | output => exact (pendingTransfer_eq_output_iff.1 h).1

theorem hostEvent_stall_of_no_transfer (h : pendingTransfer s = none) : hostEvent .stall s = step s := by
  simp [hostEvent, h]

/-- Where the core does not wait its step transfers nothing. -/
theorem step_channels_of_no_transfer (hn : pendingTransfer s = none) (h : step s = .next t) :
    t.input = s.input ∧ t.output = s.output := by
  obtain ⟨-, hin⟩ := whatAStepConsumes s t h
  obtain ⟨-, -, hout⟩ := whatAStepDelivers s t h
  refine ⟨hin fun hc => ?_, hout fun hd => ?_⟩
  · cases hn.symm.trans (pendingTransfer_eq_input_iff.2 hc)
  · cases hn.symm.trans (pendingTransfer_eq_output_iff.2 hd)

/-- Settles O47: where the core waits, a stall keeps its state; where it does not, the step goes on and reaches neither
channel; a stopped core has no step. -/
theorem waitsInExactlyTwoPlaces : Obligations.WaitsInExactlyTwoPlaces := by
  intro s
  refine ⟨pendingTransfer_eq_input_iff, pendingTransfer_eq_output_iff, fun h => ?_, fun h => ?_,
    fun hr e he => hostEvent_of_stopped hr he⟩
  · obtain ⟨c, hc⟩ := Option.ne_none_iff_exists'.1 h
    exact ⟨run_of_pendingTransfer hc, hostEvent_stall_of_pendingTransfer hc⟩
  · exact ⟨hostEvent_stall_of_no_transfer h, fun _ => step_channels_of_no_transfer h⟩

/-! ## The exit status -/

/-- Settles O49: `EXIT_FAULT_STATUS` is a successor, whatever it is. -/
theorem exitStatusTellsHowTheRunEnded : Obligations.ExitStatusTellsHowTheRunEnded := by
  refine fun s => ⟨fun hr => ?_, fun hr => ?_, fun hr => ⟨exitFaultStatus, Nat.succ_ne_zero _, ?_⟩⟩
  all_goals rw [exitStatus, hr]

end Sys2Proof
end

section
/-! PROOFS. Reset (R260): the launch of every legal setup, its values (R32) and its first step. -/

namespace Sys2Proof

open Sys2Proof.Machine

variable {h : HostSetup}

/-- A legal reset launches its setup, whatever state it finds (R260). -/
theorem hostEvent_reset_of_pos (s : State) (hn : 0 < h.tapeSize) :
    hostEvent (.reset h) s = .next (State.ofSetup h) :=
  if_neg hn.ne'

/-- With no program the first step is the halt. -/
theorem step_ofSetup_of_nil (hn : 0 < h.tapeSize) (hp : h.prog = []) :
    step (State.ofSetup h) = .next (halt (State.ofSetup h)) :=
  step_of_end rfl hn (congrArg List.length hp).symm

/-- The first step executes the byte at position 0. -/
theorem step_ofSetup_of_cons {b : Byte} {rest : List Byte} (hn : 0 < h.tapeSize) (hp : h.prog = b :: rest) :
    step (State.ofSetup h) = exec (decodeByte b) (State.ofSetup h) :=
  step_of_byte rfl hn (congrArg (·[0]?) hp)

/-- Settles O5: the state that a legal reset answers is the setup's launch, whatever came before, and its `IP` is 0. -/
theorem resetSetsEveryPieceOfState : Obligations.ResetSetsEveryPieceOfState := by
  intro h s hn
  refine ⟨State.ofSetup h, hostEvent_reset_of_pos s hn, rfl, rfl, Memory.read_nil, rfl, rfl, rfl, rfl, rfl, rfl, rfl,
    rfl, rfl, rfl, ?_⟩
  split
  next hp => exact step_ofSetup_of_nil hn hp
  next hp => exact step_ofSetup_of_cons hn hp

end Sys2Proof
end
